-- ==== Sys2Proof/Word.lean ====
section
/-!
DEFINITION. The two word types of the engine: bytes of a stream and 32-bit registers (10_state.md R22).
-/

namespace Sys2Proof

/-- One byte of a space or of a stream. -/
abbrev Byte := BitVec 8

/-- The contents of one 32-bit register (R22), and an index of IN or OUT (R50). -/
abbrev Word := BitVec 32

end Sys2Proof
end

