-- ==== Sys2Proof/Config.lean ====
section
/-!
DEFINITION. What an implementation fixes (00_scope.md R5, 10_state.md R21) and the free values the spec leaves open.
-/

namespace Sys2Proof

/-- The format tag: four bytes compared one by one, with no numeric value (R54, R91). -/
structure Magic where
  b0 : Byte
  b1 : Byte
  b2 : Byte
  b3 : Byte
deriving DecidableEq, Repr

/-- The OPEN parameters of R5. They stand in the state (`State.cfg`), so that a statement about every state is a
statement about every configuration; no step changes them. -/
structure Config where
  /-- MAGIC (D2). -/
  magic : Magic
  /-- IN_CAP: bytes of input memory (D3). -/
  inCap : Nat
  /-- OUT_CAP: bytes of output memory (D4). -/
  outCap : Nat
deriving DecidableEq, Repr

/-- The configuration of the reset state. MAGIC is the spec's default "Yaz0" (PRESUMED: the spec marks it as general
knowledge, D2). OUT_CAP = 2^32-1 is the value with which the engine is exactly the source's function (R94), and
IN_CAP = 2^32 covers every 32-bit index (both DESIGN CHOICE). Unsafe for a claim that rests on these values. -/
def Config.default : Config where
  magic := ⟨0x59, 0x61, 0x7A, 0x30⟩
  inCap := 4294967296
  outCap := 4294967295

/-- FREE VALUE. The byte a HIST slot holds after a hardware reset, before anything is written to it (R35, R39:
"unspecified (any value)"). Arguments: how many resets came before, and the slot. -/
opaque Config.freeHist : Nat → Nat → Byte

/-- FREE VALUE. `draw32()` of R130 and D12: what a read of OUT_LEN, IN_PTR or OUT_PTR returns while BUSY. Argument: how
many such values were handed out before. -/
opaque Config.draw32 : Nat → Word

end Sys2Proof
end

