-- ==== Sys2Proof/Syntax.lean ====
section
/-!
DEFINITION. The instructions: one constructor per row of spec/opcode_table.json, and the forms in which they reach the
engine (a piece of the stream, or an access of the host).
-/

namespace Sys2Proof

/-- The rows of the opcode table (30_encoding.md R79, 44_host.md R130 to R135), each with the operands the spec gives it. -/
inductive Instr where
  /-- HDR (R90): the magic bytes IN[0..3] and the decoded length N. The reserved bytes are not read (R93), so they are
  no operand. -/
  | hdr (m : Magic) (n : Word)
  /-- CTRL (R101): the control byte. -/
  | ctrl (c : Byte)
  /-- LIT (R110): the output byte. -/
  | lit (v : Byte)
  /-- BREFL (R112): the distance field and the extended-length byte. -/
  | brefl (d : BitVec 12) (e : Byte)
  /-- BREFS (R111): the length nibble, 1..15, and the distance field. -/
  | brefs (n : BitVec 4) (d : BitVec 12)
  /-- COPY (R120): the internal step of the copy unit, without an encoding. -/
  | copy
  /-- RegRead (R130): the register offset. -/
  | regRead (off : BitVec 8)
  /-- RegWrite.CTRL (R131): the value written to offset 0x00. -/
  | regWriteCtrl (v : Word)
  /-- RegWrite.IN_LEN (R132): the value written to offset 0x08. -/
  | regWriteInLen (v : Word)
  /-- RegWrite.other (R133): a read-only or reserved offset, and the value. -/
  | regWriteOther (off : BitVec 8) (v : Word)
  /-- InWrite (R134): the index and the byte. -/
  | inWrite (i : Word) (b : Byte)
  /-- OutRead (R135): the index. -/
  | outRead (i : Word)
deriving DecidableEq, Repr

/-- The width of a register access as the host drives it. Only 32 bits has a meaning (R55). -/
inductive AccessWidth where
  | w8
  | w16
  | w32
  | w64
deriving DecidableEq, Repr

/-- One access of the host, before it is decoded: what R55 and R136 refuse can be said here. -/
inductive HostAccess where
  /-- A register read of some width at some address of the REG window. -/
  | regRead (w : AccessWidth) (a : Word)
  /-- A register write. -/
  | regWrite (w : AccessWidth) (a : Word) (v : Word)
  /-- A byte write to the input space. -/
  | inWrite (i : Word) (b : Byte)
  /-- A byte read from the output space. -/
  | outRead (i : Word)
  /-- Any operation outside R130 to R135 (R136). -/
  | other
deriving DecidableEq, Repr

/-- What the engine expects next in the stream: the context column of R79. -/
inductive StreamCtx where
  /-- The header (`phase = HDR`). -/
  | hdr
  /-- A control byte (`phase = WIN`, `mask = 0`). -/
  | win
  /-- A literal (`tok = LIT`). -/
  | lit
  /-- A back-reference (`tok = REF`). -/
  | ref
deriving DecidableEq, Repr

/-- The encoded form of an instruction. -/
inductive Encoded where
  /-- Bytes of the stream, read in a context. -/
  | stream (c : StreamCtx) (bytes : List Byte)
  /-- An access of the host. -/
  | host (a : HostAccess)
  /-- The copy unit's own step: no encoding (R120). -/
  | internal
deriving DecidableEq, Repr

end Sys2Proof
end

