-- ==== Sys2Proof/WellFormed.lean ====
section
/-!
DEFINITION. Which terms of `Instr` stand for an encoding the spec has.
-/

namespace Sys2Proof

/-- A register offset is a multiple of 4 (20_memory.md R55). -/
def offAligned (off : BitVec 8) : Bool := off &&& 0x03#8 == 0x00#8

/-- The offsets of RegWrite.other: every aligned one but CTRL and IN_LEN (44_host.md R133). -/
def offOther (off : BitVec 8) : Bool := offAligned off && off != 0x00#8 && off != 0x08#8

/-- BREFS has a nibble of 1..15 (30_encoding.md R75); register offsets are aligned (R55); RegWrite.other is neither CTRL
nor IN_LEN (R133). Every other value of every operand is an encoding (R80). -/
def Instr.wellFormed : Instr → Bool
  | .hdr _ _ => true
  | .ctrl _ => true
  | .lit _ => true
  | .brefl _ _ => true
  | .brefs n _ => n != 0#4
  | .copy => true
  | .regRead off => offAligned off
  | .regWriteCtrl _ => true
  | .regWriteInLen _ => true
  | .regWriteOther off _ => offOther off
  | .inWrite _ _ => true
  | .outRead _ => true

end Sys2Proof
end

