-- ==== Sys2Proof/Decode.lean ====
section
/-!
DEFINITION. The decoder, total on any bytes and any access, rejecting by name; the encoder; and the reading of a bare
opcode-table word.
-/

namespace Sys2Proof

/-- Why a piece of stream or an access is no instruction. -/
inductive DecodeError where
  /-- The bytes end inside the item. -/
  | tooShort
  /-- A register access that is not 32 bits wide (R55). -/
  | registerWidth
  /-- A register offset that is not a multiple of 4 (R55). -/
  | registerMisaligned
  /-- A register offset past 0xFC (R55). -/
  | registerPastWindow
  /-- An operation outside R130 to R135 (R136). -/
  | noSuchOperation
deriving DecidableEq, Repr

/-! ### Fields -/

/-- `BE32(a, b, c, d)` of 00_scope.md R6: byte `a` first and most significant. -/
def be32 (a b c d : Byte) : Word :=
  (a.setWidth 32 <<< 24) ||| (b.setWidth 32 <<< 16) ||| (c.setWidth 32 <<< 8) ||| d.setWidth 32

/-- Byte `k` of a 32-bit value counted from the most significant, the order of a big-endian field (R54). -/
def beByte (w : Word) (k : Nat) : Byte := w.extractLsb' (24 - 8 * k) 8

/-- The length nibble `n = b1[7:4]` (30_encoding.md R74). -/
def lenNibble (b1 : Byte) : BitVec 4 := b1.extractLsb' 4 4

/-- The distance field `d = ((b1 & 0x0F) << 8) | b2` (R74, R77). -/
def distField (b1 b2 : Byte) : BitVec 12 := ((b1 &&& 0x0F#8).setWidth 12 <<< 8) ||| b2.setWidth 12

/-- The first byte of a back-reference: `(n << 4) | (d >> 8)` (R82). -/
def refByte1 (n : BitVec 4) (d : BitVec 12) : Byte := (n.setWidth 8 <<< 4) ||| (d >>> 8).setWidth 8

/-- The second byte of a back-reference: `d & 0xFF` (R82). -/
def refByte2 (d : BitVec 12) : Byte := d.setWidth 8

/-! ### The stream -/

/-- The opcode map R79: the item at the head of the bytes, and the bytes after it. BREFL is tested before BREFS. -/
def decodeStream : StreamCtx → List Byte → Except DecodeError (Instr × List Byte)
  | .hdr, m0 :: m1 :: m2 :: m3 :: n0 :: n1 :: n2 :: n3 :: _ :: _ :: _ :: _ :: _ :: _ :: _ :: _ :: rest =>
    .ok (.hdr ⟨m0, m1, m2, m3⟩ (be32 n0 n1 n2 n3), rest)
  | .hdr, _ => .error .tooShort
  | .win, c :: rest => .ok (.ctrl c, rest)
  | .win, [] => .error .tooShort
  | .lit, v :: rest => .ok (.lit v, rest)
  | .lit, [] => .error .tooShort
  | .ref, b1 :: b2 :: rest =>
    if lenNibble b1 = 0#4 then
      match rest with
      | b3 :: rest' => .ok (.brefl (distField b1 b2) b3, rest')
      | [] => .error .tooShort
    else .ok (.brefs (lenNibble b1) (distField b1 b2), rest)
  | .ref, _ => .error .tooShort

/-! ### The host's accesses -/

/-- A register access has a meaning only at 32 bits, at a multiple of 4, up to 0xFC (R55). -/
def decodeOffset (w : AccessWidth) (a : Word) : Except DecodeError (BitVec 8) :=
  if w ≠ .w32 then .error .registerWidth
  else if 0xFF < a.toNat then .error .registerPastWindow
  else if offAligned (a.setWidth 8) then .ok (a.setWidth 8)
  else .error .registerMisaligned

/-- The write rows of the table: CTRL and IN_LEN by their offsets, then every other aligned offset (R131 to R133). -/
def decodeRegWrite (off : BitVec 8) (v : Word) : Instr :=
  if off = 0x00#8 then .regWriteCtrl v
  else if off = 0x08#8 then .regWriteInLen v
  else .regWriteOther off v

/-- The host operations R130 to R135; everything else is refused (R136). -/
def decodeHost : HostAccess → Except DecodeError Instr
  | .regRead w a => (decodeOffset w a).map .regRead
  | .regWrite w a v => (decodeOffset w a).map (decodeRegWrite · v)
  | .inWrite i b => .ok (.inWrite i b)
  | .outRead i => .ok (.outRead i)
  | .other => .error .noSuchOperation

/-- The whole decoder. -/
def decode : Encoded → Except DecodeError Instr
  | .stream c bytes => (decodeStream c bytes).map Prod.fst
  | .host a => decodeHost a
  | .internal => .ok .copy

/-! ### The encoder -/

/-- The bytes of a stream item as 30_encoding.md R71 to R75 lay them out. The reserved header bytes are written as zero,
as the assembler of R82 writes them. -/
def encodeBytes : Instr → List Byte
  | .hdr m n =>
    [m.b0, m.b1, m.b2, m.b3, beByte n 0, beByte n 1, beByte n 2, beByte n 3] ++ List.replicate 8 0x00#8
  | .ctrl c => [c]
  | .lit v => [v]
  | .brefl d e => [refByte1 0#4 d, refByte2 d, e]
  | .brefs n d => [refByte1 n d, refByte2 d]
  | .copy => []
  | .regRead _ => []
  | .regWriteCtrl _ => []
  | .regWriteInLen _ => []
  | .regWriteOther _ _ => []
  | .inWrite _ _ => []
  | .outRead _ => []

/-- The encoded form of an instruction, with the context in which it is read (R79). -/
def encode : Instr → Encoded
  | .hdr m n => .stream .hdr (encodeBytes (.hdr m n))
  | .ctrl c => .stream .win (encodeBytes (.ctrl c))
  | .lit v => .stream .lit (encodeBytes (.lit v))
  | .brefl d e => .stream .ref (encodeBytes (.brefl d e))
  | .brefs n d => .stream .ref (encodeBytes (.brefs n d))
  | .copy => .internal
  | .regRead off => .host (.regRead .w32 (off.setWidth 32))
  | .regWriteCtrl v => .host (.regWrite .w32 0x00#32 v)
  | .regWriteInLen v => .host (.regWrite .w32 0x08#32 v)
  | .regWriteOther off v => .host (.regWrite .w32 (off.setWidth 32) v)
  | .inWrite i b => .host (.inWrite i b)
  | .outRead i => .host (.outRead i)

/-! ### A bare opcode-table word -/

/-- Byte `k` of a number, byte 0 the least significant (the numbering of spec/opcode_table.json). -/
def tableByte (w k : Nat) : Byte := BitVec.ofNat 8 (w >>> (8 * k))

/-- The first `n` bytes of a number. -/
def tableBytes (n w : Nat) : List Byte := (List.range n).map (tableByte w)

/-- The encoded form a bare table word is taken for (DESIGN CHOICE, log entry 14). The table's rows are selected by the
engine's context (R79: phase, `tok`, a host read or a host write), which a bare word does not carry, and several rows share
one pattern of bits. The length picks the kind: 3 bytes are a back-reference, 4 the magic of a header, 5 a register write
(its offset, then its value), more a header. Among words of one byte the row with the widest mask that matches wins:
RegWrite.CTRL and RegWrite.IN_LEN (0xFF), then BREFL (0xF0), then RegRead (0x03), then BREFS. -/
def tableEncoded (nbits w : Nat) : Encoded :=
  if nbits ≤ 8 then
    let b := tableByte w 0
    if b = 0x00#8 ∨ b = 0x08#8 then .host (.regWrite .w32 (b.setWidth 32) 0#32)
    else if lenNibble b = 0#4 then .stream .ref (tableBytes 3 w)
    else if offAligned b then .host (.regRead .w32 (b.setWidth 32))
    else .stream .ref (tableBytes 3 w)
  else if nbits ≤ 24 then .stream .ref (tableBytes 3 w)
  else if nbits ≤ 32 then .stream .hdr (tableBytes 16 w)
  else if nbits ≤ 40 then .host (.regWrite .w32 ((tableByte w 0).setWidth 32) (BitVec.ofNat 32 (w >>> 8)))
  else .stream .hdr (tableBytes 16 w)

/-- The instruction the decoder reads from a bare table word (see `tableEncoded`). -/
def decodeTableWord (nbits w : Nat) : Option Instr :=
  match decode (tableEncoded nbits w) with
  | .ok i => some i
  | .error _ => none

end Sys2Proof
end

