-- ==== Sys2Proof/Machine/State.lean ====
section
/-!
DEFINITION. The state of one engine, the reasons a step can stop, and the state after reset (10_state.md).
-/

namespace Sys2Proof.Machine

/-- The FSM state (R30). -/
inductive Phase where
  | idle
  | hdr
  | win
  | tok
  | copy
deriving DecidableEq, Repr

/-- The token kind chosen by the last WIN step (R33). -/
inductive Tok where
  | lit
  | ref
deriving DecidableEq, Repr

/-- The decode errors of 60_exceptions.md R141. -/
inductive ErrorKind where
  | invalidMagic
  | truncatedInput
  | invalidBackReference
  | capacityExceeded
deriving DecidableEq, Repr

/-- What the host's last read returned. The model's own (DESIGN CHOICE): a read returns a value, and a step returns only
a state. -/
inductive Reply where
  | none
  | word (v : Word)
  | byte (b : Byte)
deriving DecidableEq, Repr

/-- What happens next, as the outside decides it: an access of the host, a turn of the engine, or a hardware reset (R20,
R160). The model's own (DESIGN CHOICE). -/
inductive Turn where
  | host (a : HostAccess)
  | engine
  | reset
deriving DecidableEq, Repr

/-- Everything the spec gives one engine (R21 to R37), its configuration (R5), and four fields of the model's own:
`histSeed`, `draws`, `reply` and `turns`. CTRL and the reserved registers store nothing (R23, R29). -/
structure State where
  /-- MAGIC, IN_CAP, OUT_CAP: fixed (R5, R21). -/
  cfg : Config
  /-- R30. -/
  phase : Phase
  /-- STATUS (R24). -/
  status : Word
  /-- IN_LEN: the input length `L` (R25). -/
  inLen : Word
  /-- OUT_LEN: the decoded length `N` (R28). -/
  outLen : Word
  /-- IN_PTR: the input cursor (R26). -/
  inPtr : Word
  /-- OUT_PTR: the output cursor (R27). -/
  outPtr : Word
  /-- The control byte (R31). -/
  ctrl : Byte
  /-- The one-hot mask, 0 when exhausted (R32). -/
  mask : Byte
  /-- R33. -/
  tok : Tok
  /-- copy_src (R34). -/
  copySrc : Word
  /-- copy_rem (R34). -/
  copyRem : BitVec 9
  /-- HIST (R35): the slots written since the last hardware reset. -/
  hist : List Host.Cell
  /-- IN (R36): the written bytes. -/
  inMem : List Host.Cell
  /-- OUT (R37): the written bytes. -/
  outMem : List Host.Cell
  /-- The model's own: which free values the unwritten HIST slots hold. -/
  histSeed : Nat
  /-- The model's own: how many values `draw32()` handed out. -/
  draws : Nat
  /-- The model's own: what the host's last read returned. -/
  reply : Reply
  /-- The model's own: what happens next; when empty the engine runs alone. -/
  turns : List Turn
deriving DecidableEq, Repr

/-- The model's verdicts that stop a run (R158). None is an architectural error and none sets STATUS. -/
inductive Fault where
  /-- Raised by an engine read of an input byte below `L` that the host never wrote, or past IN_CAP (R52). Safe. -/
  | unwrittenInput (i : Nat)
  /-- Raised by OutRead where the output is no result (R135). Safe. -/
  | outputNotValid (i : Nat)
  /-- Raised by an engine write at or past OUT_CAP, which R53 and R59 call impossible (DESIGN CHOICE). Safe. -/
  | outputOutOfRange (i : Nat)
deriving DecidableEq, Repr

/-- Why a step has no meaning. -/
inductive Refusal where
  /-- Raised by an arm of `exec` that has no meaning yet. Safe. -/
  | notModelled (mnemonic : String)
  /-- Raised by a host access that decodes to no instruction (R55, R136). Safe. -/
  | rejected (e : DecodeError)
  /-- Raised by the meaning of a term that stands for no encoding (`Instr.wellFormed` fails). Safe. -/
  | illFormed
  /-- Raised by an engine item outside the context that selects it (R79). Safe. -/
  | notSelected
  /-- Raised by InWrite while BUSY: "the model has no move for it" (R134). Unsafe where a real host does it (D13). -/
  | inputWriteWhileBusy
  /-- Raised by InWrite at or past IN_CAP (R134). Safe. -/
  | inputIndexOutOfRange (i : Nat)
deriving DecidableEq, Repr

/-- The state right after a hardware reset (R39, R160), in the default configuration. -/
def State.reset : State where
  cfg := Config.default
  phase := .idle
  status := 0x00000000#32
  inLen := 0x00000000#32
  outLen := 0x00000000#32
  inPtr := 0x00000000#32
  outPtr := 0x00000000#32
  ctrl := 0x00#8
  mask := 0x00#8
  tok := .lit
  copySrc := 0x00000000#32
  copyRem := 0#9
  hist := []
  inMem := []
  outMem := []
  histSeed := 0
  draws := 0
  reply := .none
  turns := []

end Sys2Proof.Machine
end

