-- ==== Sys2Proof/Machine/Memory.lean ====
section
/-!
DEFINITION. A byte space as plain data: its written bytes by rising address (20_memory.md R50). An unlisted address holds
nothing: it is unwritten.
-/

namespace Sys2Proof.Machine

/-- The byte at an address, or nothing where none was written. -/
def Memory.read : List Host.Cell → Nat → Option Byte
  | [], _ => none
  | (a, b) :: m, i => if a = i then some b else Memory.read m i

/-- Write one byte, keeping the addresses rising. -/
def Memory.write : List Host.Cell → Nat → Byte → List Host.Cell
  | [], i, v => [(i, v)]
  | (a, b) :: m, i, v =>
    if i < a then (i, v) :: (a, b) :: m
    else if i = a then (i, v) :: m
    else (a, b) :: Memory.write m i v

/-- Write a run of bytes from an address on. -/
def Memory.writeAll : List Host.Cell → Nat → List Byte → List Host.Cell
  | m, _, [] => m
  | m, i, b :: bs => Memory.writeAll (Memory.write m i b) (i + 1) bs

/-- The canonical form: addresses strictly rising. An unlisted address reads as unwritten, which no entry equals. -/
abbrev Memory.wf (m : List Host.Cell) : Prop := (m.map Prod.fst).Pairwise (· < ·)

end Sys2Proof.Machine
end

