-- ==== Sys2Proof/Machine/Flags.lean ====
section
/-!
DEFINITION. The engine's flags: the STATUS word (10_state.md R24, 60_exceptions.md R141) and the control bit that the mask
selects (41_window.md R102).
-/

namespace Sys2Proof.Machine

/-- STATUS while a decode runs: BUSY = 1 (R24, R131). -/
def statusBusy : Word := 0x00000001#32

/-- STATUS after success: DONE = 1 (R100). -/
def statusDone : Word := 0x00000002#32

/-- The error codes of R141. -/
def errorCode : ErrorKind → Word
  | .invalidMagic => 1#32
  | .truncatedInput => 2#32
  | .invalidBackReference => 3#32
  | .capacityExceeded => 4#32

/-- STATUS after an error: `0x00000004 | (code(E) << 4)` (R140). -/
def statusError (e : ErrorKind) : Word := 0x00000004#32 ||| (errorCode e <<< 4)

/-- STATUS.BUSY, bit 0 (R24). -/
def busyBit (status : Word) : Bool := status.getLsbD 0

/-- STATUS.DONE, bit 1 (R24). -/
def doneBit (status : Word) : Bool := status.getLsbD 1

/-- STATUS.ERR, bit 2 (R24). -/
def errBit (status : Word) : Bool := status.getLsbD 2

/-- STATUS.ERRCODE, bits 7:4 (R24). -/
def errCodeField (status : Word) : BitVec 4 := status.extractLsb' 4 4

/-- The mask just after a control fetch: the most significant bit (R101). -/
def maskTop : Byte := 0x80#8

/-- The token kind of the bit of `ctrl` that `mask` selects: 1 is a literal, 0 a back-reference (R72, R102). -/
def tokOf (ctrl mask : Byte) : Tok := if ctrl &&& mask ≠ 0x00#8 then .lit else .ref

/-- The mask moves on after the test (R102). -/
def maskNext (mask : Byte) : Byte := mask >>> 1

end Sys2Proof.Machine
end

