-- ==== Sys2Proof/Machine/Operands.lean ====
section
/-!
DEFINITION. What the operands of a token stand for (30_encoding.md R76, R77), and the places an index falls in.
-/

namespace Sys2Proof.Machine

/-- The length of a short back-reference: `n + 2` (R76). -/
def shortLen (n : BitVec 4) : Nat := n.toNat + 2

/-- The length of a long back-reference: `e + 18` (R76). -/
def longLen (e : Byte) : Nat := e.toNat + 18

/-- How many bytes back a copy starts: `d + 1` (R77). -/
def backOf (d : BitVec 12) : Nat := d.toNat + 1

/-- HIST_SIZE (00_scope.md R5). -/
def histSize : Nat := 4096

/-- The HIST slot of an output index (10_state.md R35). -/
def histSlot (i : Nat) : Nat := i % histSize

/-- HDR_SIZE (R5). -/
def hdrSize : Nat := 16

end Sys2Proof.Machine
end

