-- ==== Sys2Proof/Machine/Ops.lean ====
section
/-!
DEFINITION. The operations every meaning shares: the accesses to IN, OUT and HIST, the error stop, the success stop, the
checked payload read, the copy set-up, START and the hardware reset.
-/

namespace Sys2Proof.Machine

/-! ### The three spaces -/

/-- The byte `IN[i]`, or nothing where the host wrote none or past IN_CAP (R36, R52). -/
def inByte (s : State) (i : Nat) : Option Byte :=
  if i < s.cfg.inCap then Memory.read s.inMem i else none

/-- The byte `OUT[i]`, or nothing where the engine wrote none (R37). -/
def outByte (s : State) (i : Nat) : Option Byte := Memory.read s.outMem i

/-- `HistRead(j)` (R8). A slot not written since the last hardware reset holds a free value (R39). -/
def histRead (s : State) (j : Nat) : Byte :=
  match Memory.read s.hist j with
  | some b => b
  | none => Config.freeHist s.histSeed j

/-- One output byte: `MemWrite(OUT, out_ptr, 1, v)` and `HistWrite(out_ptr mod 4096, v)` in the same step, then
`out_ptr <- out_ptr + 1` (R53, R122). -/
def putByte (v : Byte) (s : State) : State :=
  { s with
    outMem := Memory.write s.outMem s.outPtr.toNat v
    hist := Memory.write s.hist (histSlot s.outPtr.toNat) v
    outPtr := s.outPtr + 1#32 }

/-- An output write lands inside the output memory; R53 and R59 say no other occurs, and the model faults on one. -/
def withRoom (s : State) (k : Host.Outcome State Fault Refusal) : Host.Outcome State Fault Refusal :=
  if s.outPtr.toNat < s.cfg.outCap then k else .fault (.outputOutOfRange s.outPtr.toNat)

/-! ### Stops -/

/-- `raise E`: the error stop, the engine's analogue of taking an exception (60_exceptions.md R140). Nothing is saved and
nothing is vectored; there is no return from it (R149). -/
def raiseError (e : ErrorKind) (s : State) : State :=
  { s with phase := .idle, status := statusError e }

/-- `finish`: the success stop (41_window.md R100). -/
def finish (s : State) : State :=
  { s with phase := .idle, status := statusDone }

/-! ### Parts of the engine's steps -/

/-- `ReadPayload()` `k` times, then `f` (42_tokens.md R114): each read first checks `in_ptr < L`, and the first missing byte
raises TruncatedInput with the bytes before it consumed. -/
def consume : Nat → State → (State → Host.Outcome State Fault Refusal) → Host.Outcome State Fault Refusal
  | 0, s, f => f s
  | k + 1, s, f =>
    if s.inPtr.toNat < s.inLen.toNat then consume k { s with inPtr := s.inPtr + 1#32 } f
    else .next (raiseError .truncatedInput s)

/-- The bit select and mask advance that ends a WIN step (41_window.md R102): test, then shift. -/
def selectBit (s : State) : State :=
  { s with tok := tokOf s.ctrl s.mask, mask := maskNext s.mask, phase := .tok }

/-- `SetupCopy(d, len)` (42_tokens.md R113); the test is on integers. -/
def setupCopy (d : BitVec 12) (len : Nat) (s : State) : State :=
  if s.outPtr.toNat < backOf d then raiseError .invalidBackReference s
  else
    { s with
      copySrc := s.outPtr - BitVec.ofNat 32 (backOf d)
      copyRem := BitVec.ofNat 9 len
      phase := .copy }

/-- An engine item runs only in the context that selects it (30_encoding.md R79). -/
def selected (c : Prop) [Decidable c] (k : Host.Outcome State Fault Refusal) : Host.Outcome State Fault Refusal :=
  if c then k else .refused .notSelected

/-! ### START and reset -/

/-- The effect of START on an idle engine (44_host.md R131). -/
def startDecode (s : State) : State :=
  { s with
    status := statusBusy
    outLen := 0#32
    inPtr := 0#32
    outPtr := 0#32
    ctrl := 0x00#8
    mask := 0x00#8
    tok := .lit
    copySrc := 0#32
    copyRem := 0#9
    outMem := []
    phase := .hdr }

/-- Hardware reset (70_reset_and_hazards.md R160): every piece of the engine's state takes its reset value. The
configuration and what belongs to the host (what it has read, what it will do) are no state of the engine and stay; HIST
holds new free values. -/
def hardwareReset (s : State) : State :=
  { State.reset with
    cfg := s.cfg
    histSeed := s.histSeed + 1
    draws := s.draws
    reply := s.reply
    turns := s.turns }

/-! ### Registers -/

/-- OUT_LEN, IN_PTR and OUT_PTR are exact while idle and free while BUSY (44_host.md R130, D12). The second component
counts the free values used. -/
def cursorRead (s : State) (v : Word) : Word × Nat :=
  if s.phase = .idle then (v, 0) else (Config.draw32 s.draws, 1)

/-- The value a register read returns (R130), and how many free values it used. -/
def regValue (off : BitVec 8) (s : State) : Word × Nat :=
  if off = 0x00#8 then (0x00000000#32, 0)
  else if off = 0x04#8 then (s.status, 0)
  else if off = 0x08#8 then (s.inLen, 0)
  else if off = 0x0C#8 then cursorRead s s.outLen
  else if off = 0x10#8 then cursorRead s s.inPtr
  else if off = 0x14#8 then cursorRead s s.outPtr
  else (0x00000000#32, 0)

end Sys2Proof.Machine
end

