-- ==== Sys2Proof/Machine/Copy.lean ====
section
/-!
DEFINITION. The circular-buffer copy unit (43_copy.md).
-/

namespace Sys2Proof.Machine

/-- The end of a copy: the rest of the length is discarded (R120, R121). -/
def copyExit (s : State) : State := { s with copyRem := 0#9, phase := .win }

/-- One byte of a copy: HIST is read first, then OUT and HIST are written (R120, R125). -/
def copyByte (s : State) : State :=
  { putByte (histRead s (histSlot s.copySrc.toNat)) s with
    copySrc := s.copySrc + 1#32
    copyRem := s.copyRem - 1#9 }

/-- COPY (R120), clamped at `N` before every byte (R121). -/
def execCopy (s : State) : Host.Outcome State Fault Refusal :=
  selected (s.phase = .copy) <|
    if s.copyRem = 0#9 ∨ s.outPtr = s.outLen then .next (copyExit s)
    else withRoom s (.next (copyByte s))

end Sys2Proof.Machine
end

