-- ==== Sys2Proof/Machine/Header.lean ====
section
/-!
DEFINITION. The header parser (40_header.md).
-/

namespace Sys2Proof.Machine

/-- HDR (R90). The checks stand in the order (a), (b), (c), (d) of R146. -/
def execHdr (m : Magic) (n : Word) (s : State) : Host.Outcome State Fault Refusal :=
  selected (s.phase = .hdr) <|
    if s.inLen.toNat < 4 then .next (raiseError .truncatedInput s)
    else if m ≠ s.cfg.magic then .next (raiseError .invalidMagic s)
    else if s.inLen.toNat < hdrSize then .next (raiseError .truncatedInput s)
    else if s.cfg.outCap < n.toNat then .next (raiseError .capacityExceeded { s with outLen := n })
    else .next { s with outLen := n, inPtr := 16#32, outPtr := 0#32, mask := 0x00#8, phase := .win }

end Sys2Proof.Machine
end

