-- ==== Sys2Proof/Machine/HostOps.lean ====
section
/-!
DEFINITION. The host operations (44_host.md).
-/

namespace Sys2Proof.Machine

/-- RegRead (R130). -/
def execRegRead (off : BitVec 8) (s : State) : Host.Outcome State Fault Refusal :=
  if offAligned off then
    .next { s with reply := .word (regValue off s).1, draws := s.draws + (regValue off s).2 }
  else .refused .illFormed

/-- RegWrite to CTRL (R131): START on an idle engine; otherwise no effect. -/
def execRegWriteCtrl (v : Word) (s : State) : Host.Outcome State Fault Refusal :=
  if v.getLsbD 0 ∧ s.phase = .idle then .next (startDecode s) else .next s

/-- RegWrite to IN_LEN (R132): ignored while BUSY. -/
def execRegWriteInLen (v : Word) (s : State) : Host.Outcome State Fault Refusal :=
  if s.phase = .idle then .next { s with inLen := v } else .next s

/-- RegWrite to a read-only or reserved offset (R133): no effect, in every phase. -/
def execRegWriteOther (off : BitVec 8) (_v : Word) (s : State) : Host.Outcome State Fault Refusal :=
  if offOther off then .next s else .refused .illFormed

/-- InWrite (R134): an index below IN_CAP, while idle. "The model has no move for it" while BUSY. -/
def execInWrite (i : Word) (b : Byte) (s : State) : Host.Outcome State Fault Refusal :=
  if s.phase ≠ .idle then .refused .inputWriteWhileBusy
  else if i.toNat < s.cfg.inCap then .next { s with inMem := Memory.write s.inMem i.toNat b }
  else .refused (.inputIndexOutOfRange i.toNat)

/-- OutRead (R135): valid when STATUS is exactly DONE and `i < N`. -/
def execOutRead (i : Word) (s : State) : Host.Outcome State Fault Refusal :=
  if s.status = statusDone ∧ i.toNat < s.outLen.toNat then
    match outByte s i.toNat with
    | some b => .next { s with reply := .byte b }
    | none => .fault (.outputNotValid i.toNat)
  else .fault (.outputNotValid i.toNat)

end Sys2Proof.Machine
end

