-- ==== Sys2Proof/Machine/Tokens.lean ====
section
/-!
DEFINITION. The literal / back-reference dispatcher (42_tokens.md).
-/

namespace Sys2Proof.Machine

/-- LIT (R110). -/
def execLit (v : Byte) (s : State) : Host.Outcome State Fault Refusal :=
  selected (s.phase = .tok ∧ s.tok = .lit) <|
    consume 1 s fun s₁ => withRoom s₁ (.next { putByte v s₁ with phase := .win })

/-- BREFS (R111): two payload bytes, then the copy set-up with length `n + 2`. -/
def execBrefs (n : BitVec 4) (d : BitVec 12) (s : State) : Host.Outcome State Fault Refusal :=
  if n = 0#4 then .refused .illFormed
  else
    selected (s.phase = .tok ∧ s.tok = .ref) <|
      consume 2 s fun s₁ => .next (setupCopy d (shortLen n) s₁)

/-- BREFL (R112): three payload bytes, then the copy set-up with length `e + 18`. -/
def execBrefl (d : BitVec 12) (e : Byte) (s : State) : Host.Outcome State Fault Refusal :=
  selected (s.phase = .tok ∧ s.tok = .ref) <|
    consume 3 s fun s₁ => .next (setupCopy d (longLen e) s₁)

end Sys2Proof.Machine
end

