-- ==== Sys2Proof/Machine/Window.lean ====
section
/-!
DEFINITION. The control-bit window FSM (41_window.md): the meaning of a control byte. The other two outcomes of a WIN step,
`finish` (R100) and `selectBit` without a fetch (R102), are in Ops.lean; Engine.lean chooses.
-/

namespace Sys2Proof.Machine

/-- CTRL (R101), then the bit select of the same WIN step (R102). Selected in WIN when the mask is exhausted and the output
is not complete; `in_ptr >= L` raises TruncatedInput. -/
def execCtrl (c : Byte) (s : State) : Host.Outcome State Fault Refusal :=
  selected (s.phase = .win ∧ s.mask = 0x00#8 ∧ s.outPtr ≠ s.outLen) <|
    consume 1 s fun s₁ => .next (selectBit { s₁ with ctrl := c, mask := maskTop })

end Sys2Proof.Machine
end

