-- ==== Sys2Proof/Machine/Dispatch.lean ====
section
/-!
DEFINITION. One arm per constructor of Instr.
-/

namespace Sys2Proof.Machine

def exec (i : Instr) (s : State) : Host.Outcome State Fault Refusal :=
  match i with
  | .hdr m n => Sys2Proof.Machine.execHdr m n s
  | .ctrl c => Sys2Proof.Machine.execCtrl c s
  | .lit v => Sys2Proof.Machine.execLit v s
  | .brefl d e => Sys2Proof.Machine.execBrefl d e s
  | .brefs n d => Sys2Proof.Machine.execBrefs n d s
  | .copy => Sys2Proof.Machine.execCopy s
  | .regRead off => Sys2Proof.Machine.execRegRead off s
  | .regWriteCtrl v => Sys2Proof.Machine.execRegWriteCtrl v s
  | .regWriteInLen v => Sys2Proof.Machine.execRegWriteInLen v s
  | .regWriteOther off v => Sys2Proof.Machine.execRegWriteOther off v s
  | .inWrite k b => Sys2Proof.Machine.execInWrite k b s
  | .outRead k => Sys2Proof.Machine.execOutRead k s

end Sys2Proof.Machine
end

