-- ==== Sys2Proof/Machine/Engine.lean ====
section
/-!
DEFINITION. Which rule the engine performs next and where its operands come from (10_state.md R30, 20_memory.md R52), the
host's turn, and the outside's order of turns (R20).
-/

namespace Sys2Proof.Machine

/-! ### Reading the stream -/

/-- One stream byte for the decoder: `MemRead(IN, i, 1)` where `i < L`; an unwritten byte there stops with its index
(R52). At or past `L` the engine reads nothing: the decoder sees 0, which no meaning uses, because `consume` raises
TruncatedInput first (R114). -/
def fetchByte (s : State) (i : Nat) : Except Nat Byte :=
  if i < s.inLen.toNat then
    match inByte s i with
    | some b => .ok b
    | none => .error i
  else .ok 0x00#8

/-- `k` stream bytes from index `i` on, read in increasing order (R60). -/
def fetchBytes (s : State) : Nat → Nat → Except Nat (List Byte)
  | _, 0 => .ok []
  | i, k + 1 =>
    match fetchByte s i with
    | .error j => .error j
    | .ok b => (fetchBytes s (i + 1) k).map (b :: ·)

/-- The header bytes that R90 reads: none when `L < 4`; IN[0..3]; then IN[4..7] only when the magic matched and
`L >= 16`. The reserved bytes are never read (R93): the decoder sees zeros. -/
def fetchHdr (s : State) : Except Nat (List Byte) :=
  if s.inLen.toNat < 4 then .ok (List.replicate 16 0x00#8)
  else
    match fetchBytes s 0 4 with
    | .error j => .error j
    | .ok tag =>
      if tag = [s.cfg.magic.b0, s.cfg.magic.b1, s.cfg.magic.b2, s.cfg.magic.b3] ∧ hdrSize ≤ s.inLen.toNat then
        (fetchBytes s 4 4).map fun len => tag ++ len ++ List.replicate 8 0x00#8
      else .ok (tag ++ List.replicate 12 0x00#8)

/-- The bytes of a back-reference: `b1`, `b2`, and `b3` when the nibble of `b1` is 0 (R111, R112). -/
def fetchRef (s : State) : Except Nat (List Byte) :=
  match fetchByte s s.inPtr.toNat with
  | .error j => .error j
  | .ok b1 => fetchBytes s s.inPtr.toNat (if lenNibble b1 = 0#4 then 3 else 2)

/-- The bytes of the item a context expects at the input cursor. -/
def fetchItem (c : StreamCtx) (s : State) : Except Nat (List Byte) :=
  match c with
  | .hdr => fetchHdr s
  | .win => fetchBytes s s.inPtr.toNat 1
  | .lit => fetchBytes s s.inPtr.toNat 1
  | .ref => fetchRef s

/-! ### The engine's turn -/

/-- The rule the engine performs next. -/
inductive Move where
  /-- IDLE: no step (R30, R157). -/
  | stay
  /-- The success stop (R100). -/
  | finish
  /-- The bit select without a fetch (R102). -/
  | select
  /-- An instruction. -/
  | instr (i : Instr)
  /-- An input byte that the engine needs was never written (R52). -/
  | unwritten (i : Nat)
  /-- Bytes that are no item (the fetch supplies enough bytes, so this does not occur). -/
  | reject (e : DecodeError)
deriving DecidableEq, Repr

/-- Fetch and decode the item a context expects. -/
def fetchMove (c : StreamCtx) (s : State) : Move :=
  match fetchItem c s with
  | .error j => .unwritten j
  | .ok bytes =>
    match decode (.stream c bytes) with
    | .ok i => .instr i
    | .error e => .reject e

/-- The one rule of the phase (R30). In WIN the end test comes first, then the fetch when the mask is exhausted. -/
def nextMove (s : State) : Move :=
  match s.phase with
  | .idle => .stay
  | .hdr => fetchMove .hdr s
  | .win =>
    if s.outPtr = s.outLen then .finish
    else if s.mask = 0x00#8 then fetchMove .win s
    else .select
  | .tok =>
    match s.tok with
    | .lit => fetchMove .lit s
    | .ref => fetchMove .ref s
  | .copy =>
    match decode .internal with
    | .ok i => .instr i
    | .error e => .reject e

/-- One engine step. -/
def engineStep (s : State) : Host.Outcome State Fault Refusal :=
  match nextMove s with
  | .stay => .next s
  | .finish => .next (finish s)
  | .select => .next (selectBit s)
  | .instr i => exec i s
  | .unwritten i => .fault (.unwrittenInput i)
  | .reject e => .refused (.rejected e)

/-! ### Turns -/

/-- One operation of the host (R130 to R136). -/
def hostStep (a : HostAccess) (s : State) : Host.Outcome State Fault Refusal :=
  match decode (.host a) with
  | .ok i => exec i s
  | .error e => .refused (.rejected e)

/-- The next turn (R20): a host operation, an engine step or a hardware reset (R160). When the outside has nothing more
to do the engine runs alone, which is the weak fairness of R171. -/
def takeTurn (s : State) : Host.Outcome State Fault Refusal :=
  match s.turns with
  | [] => engineStep s
  | .engine :: ts => engineStep { s with turns := ts }
  | .host a :: ts => hostStep a { s with turns := ts }
  | .reset :: ts => .next (hardwareReset { s with turns := ts })

/-! ### Placing an instruction -/

/-- The phase in which a context reads its item. -/
def ctxPhase : StreamCtx → Phase
  | .hdr => .hdr
  | .win => .win
  | .lit => .tok
  | .ref => .tok

/-- The index a context reads its item at. -/
def ctxIndex (c : StreamCtx) (s : State) : Nat :=
  match c with
  | .hdr => 0
  | .win => s.inPtr.toNat
  | .lit => s.inPtr.toNat
  | .ref => s.inPtr.toNat

/-- Make an encoded item the very next thing the machine runs: a host access as the next turn; stream bytes at the input
cursor of an engine that is BUSY in the context that selects them, with `L` and `N` raised as far as that needs. -/
def placeEncoded (x : Encoded) (s : State) : State :=
  match x with
  | .host a => { s with turns := .host a :: s.turns }
  | .internal => { s with turns := .engine :: s.turns, phase := .copy, status := statusBusy }
  | .stream c bytes =>
    let p := ctxIndex c s
    { s with
      turns := .engine :: s.turns
      phase := ctxPhase c
      status := statusBusy
      tok := if c = .ref then .ref else .lit
      mask := if c = .win then 0x00#8 else s.mask
      inMem := Memory.writeAll s.inMem p bytes
      inLen := if s.inLen.toNat < p + bytes.length then BitVec.ofNat 32 (p + bytes.length) else s.inLen
      outLen := if c ≠ .hdr ∧ s.outLen.toNat ≤ s.outPtr.toNat then s.outPtr + 1#32 else s.outLen }

end Sys2Proof.Machine
end

