-- ==== Sys2Proof/Machine/Step.lean ====
section
/-!
DEFINITION. One step of the machine, and the placing of a table word where the next step takes it from.
-/

namespace Sys2Proof.Machine

/-- One step: the next turn (10_state.md R20). -/
def step (s : State) : Host.Outcome State Fault Refusal := takeTurn s

/-- The state in which the very next step runs the instruction of a bare opcode-table word (see `tableEncoded`). -/
def State.withFetchWord (s : State) (nbits w : Nat) : State := placeEncoded (tableEncoded nbits w) s

end Sys2Proof.Machine
end

