-- ==== Sys2Proof/Safety.lean ====
section
/-!
DEFINITION. The terms claims are stated in: whose turn it is, what the stream holds, and the invariant of the machine.
-/

namespace Sys2Proof.Machine

/-- The next step is the engine's: the outside has nothing more to do, or lets the engine go first (R20). -/
def State.engineTurn (s : State) : Bool :=
  match s.turns with
  | [] => true
  | .engine :: _ => true
  | .host _ :: _ => false
  | .reset :: _ => false

/-- The state in which a turn is carried out: the turn itself is taken off the list. -/
def State.popTurn (s : State) : State := { s with turns := s.turns.tail }

/-- `k` steps, stopping at the first fault or refusal. -/
def run : Nat → State → Host.Outcome State Fault Refusal
  | 0, s => .next s
  | k + 1, s =>
    match step s with
    | .next s' => run k s'
    | .fault r => .fault r
    | .refused r => .refused r

/-- At most `k` steps of one decode: the run stops where the engine is idle, as the observation of R13 does. -/
def decodeRun : Nat → State → Host.Outcome State Fault Refusal
  | 0, s => .next s
  | k + 1, s =>
    if s.phase = .idle then .next s
    else
      match step s with
      | .next s' => decodeRun k s'
      | .fault r => .fault r
      | .refused r => .refused r

/-- The stream holds these bytes from index `p` on: each lies below `L` and was written (R51, R165). -/
def State.holds (s : State) (p : Nat) (bytes : List Byte) : Prop :=
  ∀ k b, bytes[k]? = some b → p + k < s.inLen.toNat ∧ inByte s (p + k) = some b

/-- The host met its duty of R165: every byte below `L` was written, and `L <= IN_CAP`. -/
def State.resident (s : State) : Prop := ∀ i, i < s.inLen.toNat → (inByte s i).isSome

/-- The context in which the engine takes its next item from the stream (R79). -/
def State.expects (s : State) : StreamCtx → Prop
  | .hdr => s.phase = .hdr
  | .win => s.phase = .win ∧ s.mask = 0x00#8 ∧ s.outPtr ≠ s.outLen
  | .lit => s.phase = .tok ∧ s.tok = .lit
  | .ref => s.phase = .tok ∧ s.tok = .ref

/-- The payload is being decoded: the header was accepted. -/
def State.inPayload (s : State) : Prop := s.phase = .win ∨ s.phase = .tok ∨ s.phase = .copy

/-- The values STATUS can hold (R24): busy exactly when a decode runs, otherwise never started, done or one of the four
errors. -/
def State.statusLegal (s : State) : Prop :=
  if s.phase = .idle then
    s.status ∈ [0x00000000#32, 0x00000002#32, 0x00000014#32, 0x00000024#32, 0x00000034#32, 0x00000044#32]
  else s.status = 0x00000001#32

/-- The invariant every step keeps: what 10_state.md, R57, R94 and R123 say of every state of a run. -/
structure State.Inv (s : State) : Prop where
  /-- The spaces keep their canonical form and their sizes (R50). -/
  in_wf : Memory.wf s.inMem
  out_wf : Memory.wf s.outMem
  hist_wf : Memory.wf s.hist
  in_size : ∀ c ∈ s.inMem, c.1 < s.cfg.inCap
  hist_size : ∀ c ∈ s.hist, c.1 < histSize
  /-- The engine wrote OUT exactly below `out_ptr` (R27, R37, R53). -/
  out_written : ∀ i, (outByte s i).isSome = true ↔ i < s.outPtr.toNat
  /-- R24. -/
  status_legal : s.statusLegal
  /-- After DONE, `out_ptr = N` (R27). -/
  done_full : s.status = statusDone → s.outPtr = s.outLen
  /-- R32. -/
  mask_onehot : s.mask ∈ [0x00#8, 0x80#8, 0x40#8, 0x20#8, 0x10#8, 0x08#8, 0x04#8, 0x02#8, 0x01#8]
  /-- R34. -/
  rem_range : s.copyRem.toNat ≤ 273
  /-- `out_ptr` never exceeds `N` (R27, R57). -/
  out_range : s.outPtr.toNat ≤ s.outLen.toNat
  /-- `in_ptr` never exceeds `L` during a decode (R26, R57). -/
  in_range : s.phase ≠ .idle → s.inPtr.toNat ≤ s.inLen.toNat
  /-- A decode begins at the first input byte with nothing parsed and nothing written (R131). -/
  hdr_fresh : s.phase = .hdr → s.inPtr = 0#32 ∧ s.outPtr = 0#32 ∧ s.outLen = 0#32 ∧ s.mask = 0x00#8
  /-- Past the header, `N <= OUT_CAP` (R94) and the cursor is in the payload (R26). -/
  payload : s.inPayload → s.outLen.toNat ≤ s.cfg.outCap ∧ 16 ≤ s.inPtr.toNat
  /-- A token is dispatched only while output is missing (R110). -/
  tok_room : s.phase = .tok → s.outPtr.toNat < s.outLen.toNat
  /-- The copy source is at most 4096 bytes behind the output cursor (R57, R123). -/
  copy_source : s.phase = .copy → s.copySrc.toNat < s.outPtr.toNat ∧ s.outPtr.toNat ≤ s.copySrc.toNat + histSize
  /-- HIST agrees with the last 4096 output bytes (R123). -/
  hist_agrees : ∀ i, i < s.outPtr.toNat → s.outPtr.toNat ≤ i + histSize →
    outByte s i = some (histRead s (histSlot i))

end Sys2Proof.Machine
end

