-- ==== Sys2Proof/Certificates/Slice0/Obligations.lean ====
section
/-!
DEFINITION. The statements for the provers.
-/

open Sys2Proof Sys2Proof.Machine

/-! ### Reset -/

/-- R39 and R160: every register of the reset state holds its reset value, no byte of IN or OUT is written, and every HIST
slot holds the free value of the reset (log entry 4: the model's form of "unspecified"). -/
def Obligations.ResetStateHoldsTheResetValues : Prop :=
  State.reset.phase = .idle ∧ State.reset.status = 0#32 ∧ State.reset.inLen = 0#32 ∧ State.reset.outLen = 0#32 ∧
  State.reset.inPtr = 0#32 ∧ State.reset.outPtr = 0#32 ∧ State.reset.ctrl = 0#8 ∧ State.reset.mask = 0#8 ∧
  State.reset.tok = .lit ∧ State.reset.copySrc = 0#32 ∧ State.reset.copyRem = 0#9 ∧
  (∀ i, inByte State.reset i = none ∧ outByte State.reset i = none) ∧
  (∀ j, histRead State.reset j = Config.freeHist State.reset.histSeed j)

/-- R160: a hardware reset, in any state, sets every piece of state to its reset value. HIST is unspecified: nothing is said
of it. -/
def Obligations.HardwareResetSetsEveryResetValue : Prop :=
  ∀ (s : State) (ts : List Turn), s.turns = .reset :: ts → ∃ t, step s = .next t ∧
    t.phase = .idle ∧ t.status = 0#32 ∧ t.inLen = 0#32 ∧ t.outLen = 0#32 ∧ t.inPtr = 0#32 ∧ t.outPtr = 0#32 ∧
    t.ctrl = 0#8 ∧ t.mask = 0#8 ∧ t.tok = .lit ∧ t.copySrc = 0#32 ∧ t.copyRem = 0#9 ∧
    ∀ i, inByte t i = none ∧ outByte t i = none

/-! ### A step runs the decoded instruction -/

/-- R30, R52, R79: where the stream holds the bytes of a well-formed item in the context that selects it, the engine's step
is `exec` of that item, in the state in which the turn is taken off the list. Of a header only the bytes that R90 reads need
be written (R93), and 16 of them must lie below `L`. -/
def Obligations.EngineStepRunsTheDecodedItem : Prop :=
  ∀ (s : State) (i : Instr) (c : StreamCtx) (bytes : List Byte),
    s.engineTurn = true → i.wellFormed = true → encode i = .stream c bytes → s.expects c →
    (if c = .hdr then s.holds 0 (bytes.take 8) ∧ 16 ≤ s.inLen.toNat else s.holds s.inPtr.toNat bytes) →
    step s = exec i s.popTurn

/-- R30: in the phase COPY the engine's step is `exec` of the copy step; in IDLE it has no step and keeps all state (R157). -/
def Obligations.EngineStepCopiesOrWaits : Prop :=
  ∀ s : State, s.engineTurn = true →
    (s.phase = .copy → step s = exec .copy s.popTurn) ∧ (s.phase = .idle → step s = .next s.popTurn)

/-- R130 to R136: a host access that decodes runs its instruction; one that does not is refused with the decoder's reason. -/
def Obligations.HostStepRunsTheDecodedAccess : Prop :=
  ∀ (s : State) (a : HostAccess) (ts : List Turn), s.turns = .host a :: ts →
    (∀ i, decode (.host a) = .ok i → step s = exec i { s with turns := ts }) ∧
    (∀ e, decode (.host a) = .error e → step s = .refused (.rejected e))

/-- R79: an engine item outside the context that selects it is refused, and so is a term that stands for no encoding (the
model's choices, log entries 10 and 11). -/
def Obligations.ItemsOutsideTheirContextAreRefused : Prop :=
  ∀ (s : State) (i : Instr),
    (i.wellFormed = false → ∃ r, exec i s = .refused r) ∧
    (∀ c bytes, i.wellFormed = true → encode i = .stream c bytes → ¬ s.expects c → exec i s = .refused .notSelected) ∧
    (s.phase ≠ .copy → exec .copy s = .refused .notSelected)

/-! ### The header parser -/

/-- R90, R91, R94: with at least 16 bytes, the right magic and room for `N`, the header is accepted. -/
def Obligations.HeaderIsAccepted : Prop :=
  ∀ (s : State) (n : Word), s.phase = .hdr → 16 ≤ s.inLen.toNat → n.toNat ≤ s.cfg.outCap →
    exec (.hdr s.cfg.magic n) s =
      .next { s with outLen := n, inPtr := 16#32, outPtr := 0#32, mask := 0#8, phase := .win }

/-- R90, R91: the HDR step on the bytes of the stream, with every check in its order and what each outcome writes: the
error stop alone under (a), (b) and (c), `OUT_LEN` too under (d). In the states of a decode the three registers hold 0. -/
def Obligations.HeaderStepIsTheParser : Prop :=
  ∀ s : State, s.engineTurn = true → s.phase = .hdr →
    (s.inLen.toNat < 4 → step s = .next { s.popTurn with phase := .idle, status := 0x24#32 }) ∧
    (∀ m0 m1 m2 m3, s.holds 0 [m0, m1, m2, m3] →
      ¬ (m0 = s.cfg.magic.b0 ∧ m1 = s.cfg.magic.b1 ∧ m2 = s.cfg.magic.b2 ∧ m3 = s.cfg.magic.b3) →
      step s = .next { s.popTurn with phase := .idle, status := 0x14#32 }) ∧
    (s.holds 0 [s.cfg.magic.b0, s.cfg.magic.b1, s.cfg.magic.b2, s.cfg.magic.b3] → s.inLen.toNat < 16 →
      step s = .next { s.popTurn with phase := .idle, status := 0x24#32 }) ∧
    (∀ a b c d, 16 ≤ s.inLen.toNat →
      s.holds 0 [s.cfg.magic.b0, s.cfg.magic.b1, s.cfg.magic.b2, s.cfg.magic.b3, a, b, c, d] →
      (s.cfg.outCap < (be32 a b c d).toNat →
        step s = .next { s.popTurn with phase := .idle, status := 0x44#32, outLen := be32 a b c d }) ∧
      ((be32 a b c d).toNat ≤ s.cfg.outCap →
        step s = .next { s.popTurn with
          outLen := be32 a b c d, inPtr := 16#32, outPtr := 0#32, mask := 0#8, phase := .win })) ∧
    (s.Inv → s.inPtr = 0#32 ∧ s.outPtr = 0#32 ∧ s.outLen = 0#32)

/-- R92, R54: the decoded length is the big-endian value of IN[4..7], and the engine's HDR step stores it. -/
def Obligations.HeaderLengthIsBigEndian : Prop :=
  ∀ a b c d : Byte,
    (be32 a b c d).toNat = a.toNat * 16777216 + b.toNat * 65536 + c.toNat * 256 + d.toNat ∧
    ∀ s : State, s.engineTurn = true → s.phase = .hdr → 16 ≤ s.inLen.toNat →
      s.holds 0 [s.cfg.magic.b0, s.cfg.magic.b1, s.cfg.magic.b2, s.cfg.magic.b3, a, b, c, d] →
      (be32 a b c d).toNat ≤ s.cfg.outCap →
      ∃ t, step s = .next t ∧ t.outLen = be32 a b c d ∧ t.inPtr = 16#32 ∧ t.outPtr = 0#32 ∧ t.mask = 0#8 ∧ t.phase = .win

/-- R142: a wrong magic is InvalidMagic whatever the other bytes hold, written or not, and nothing is recorded. -/
def Obligations.WrongMagicFailsWhateverFollows : Prop :=
  ∀ (s : State) (m : Magic), s.Inv → s.engineTurn = true → s.phase = .hdr →
    s.holds 0 [m.b0, m.b1, m.b2, m.b3] → m ≠ s.cfg.magic →
    ∃ t, step s = .next t ∧ t.phase = .idle ∧ t.status = 0x14#32 ∧ t.inPtr = 0#32 ∧ t.outPtr = 0#32 ∧ t.outLen = 0#32

/-- R93: the reserved bytes IN[8..15] are neither read nor checked. Two states in HDR that agree on IN[0..7] perform the same
rule with the same operands. And the whole HDR step is the same: with another input memory that agrees on IN[0..7], whatever
it holds from index 8 on, the step answers the same next state but for that memory, or the same fault. -/
def Obligations.ReservedHeaderBytesAreNotRead : Prop :=
  (∀ (s s' : State), s.phase = .hdr → s'.phase = .hdr → s'.cfg = s.cfg → s'.inLen = s.inLen →
    (∀ i, i < 8 → inByte s' i = inByte s i) → nextMove s' = nextMove s) ∧
  ∀ (s : State) (m : List Host.Cell), s.engineTurn = true → s.phase = .hdr →
    (∀ i, i < 8 → inByte { s with inMem := m } i = inByte s i) →
    (∀ t, step s = .next t → step { s with inMem := m } = .next { t with inMem := m }) ∧
    (∀ r, step s = .fault r → step { s with inMem := m } = .fault r)

/-- R145: `N > OUT_CAP` is CapacityExceeded, with `IN_PTR = 0`, `OUT_PTR = 0` and `OUT_LEN = N` recorded; with
`OUT_CAP = 2^32-1` or more it cannot occur. -/
def Obligations.CapacityExceededRecordsTheLength : Prop :=
  (∀ (s : State) (n : Word), s.Inv → s.phase = .hdr → 16 ≤ s.inLen.toNat → s.cfg.outCap < n.toNat →
    ∃ t, exec (.hdr s.cfg.magic n) s = .next t ∧ t.phase = .idle ∧ t.status = 0x44#32 ∧ t.inPtr = 0#32 ∧
      t.outPtr = 0#32 ∧ t.outLen = n) ∧
  (∀ (s t : State) (i : Instr), 4294967295 ≤ s.cfg.outCap → s.status ≠ 0x44#32 → exec i s = .next t → t.status ≠ 0x44#32)

/-- R95: a header with `N = 0` succeeds in two steps and reads no payload byte, whatever follows. -/
def Obligations.EmptyOutputSucceedsAtOnce : Prop :=
  ∀ s : State, s.turns = [] → s.phase = .hdr → 16 ≤ s.inLen.toNat →
    s.holds 0 [s.cfg.magic.b0, s.cfg.magic.b1, s.cfg.magic.b2, s.cfg.magic.b3, 0#8, 0#8, 0#8, 0#8] →
    ∃ t, run 2 s = .next t ∧ t.phase = .idle ∧ t.status = 0x2#32 ∧ t.outPtr = 0#32 ∧ t.inPtr = 16#32 ∧ t.outLen = 0#32

/-! ### The control-bit window -/

/-- R101, R102: a control byte completes: it is consumed, its top bit classifies the first token, the mask moves to bit 6. -/
def Obligations.ControlByteCompletes : Prop :=
  ∀ (s : State) (c : Byte), s.phase = .win → s.mask = 0#8 → s.outPtr ≠ s.outLen → s.inPtr.toNat < s.inLen.toNat →
    exec (.ctrl c) s =
      .next { s with
        ctrl := c, inPtr := s.inPtr + 1#32, mask := 0x40#8, tok := if c.getLsbD 7 then .lit else .ref, phase := .tok }

/-- R100: the end test of a WIN step comes first: at `out_ptr = N` the decode succeeds, whatever is left of the control
byte and of the input. -/
def Obligations.WindowFinishesAtTheDecodedLength : Prop :=
  ∀ s : State, s.engineTurn = true → s.phase = .win → s.outPtr = s.outLen →
    step s = .next { s.popTurn with phase := .idle, status := 0x2#32 }

/-- R101, R102: the rest of a WIN step: the fetch exactly when the mask is exhausted, TruncatedInput when no byte is left,
and the test of the selected bit before the shift. -/
def Obligations.WindowFetchesTestsThenShifts : Prop :=
  ∀ s : State, s.engineTurn = true → s.phase = .win → s.outPtr ≠ s.outLen →
    (s.mask ≠ 0#8 → step s = .next { s.popTurn with
      tok := if s.ctrl &&& s.mask ≠ 0#8 then .lit else .ref, mask := s.mask >>> 1, phase := .tok }) ∧
    (s.mask = 0#8 → s.inLen.toNat ≤ s.inPtr.toNat →
      step s = .next { s.popTurn with phase := .idle, status := 0x24#32 }) ∧
    (∀ c, s.mask = 0#8 → s.inPtr.toNat < s.inLen.toNat → inByte s s.inPtr.toNat = some c →
      step s = .next { s.popTurn with
        ctrl := c, inPtr := s.inPtr + 1#32, mask := 0x40#8
        tok := if c &&& 0x80#8 ≠ 0#8 then .lit else .ref, phase := .tok })

/-- R103, R72: after `j` tokens of a group the mask is `0x80 >> j`; the next token is classified by bit `7 - j` of the
control byte, and after the eighth the mask is exhausted. -/
def Obligations.GroupBitsAreTakenMsbFirst : Prop :=
  ∀ (s : State) (j : Nat), j < 8 → s.engineTurn = true → s.phase = .win → s.outPtr ≠ s.outLen → s.mask = 0x80#8 >>> j →
    ∃ t, step s = .next t ∧ t.phase = .tok ∧ t.mask = 0x80#8 >>> (j + 1) ∧ t.ctrl = s.ctrl ∧ t.inPtr = s.inPtr ∧
      (t.tok = .lit ↔ s.ctrl.getLsbD (7 - j) = true) ∧ (t.mask = 0#8 ↔ j = 7)

/-! ### The dispatcher -/

/-- R110: LIT. The byte is the next input byte; it is written to OUT and HIST at the output cursor, and both cursors advance;
with no byte left TruncatedInput is raised and nothing is written. -/
def Obligations.LiteralIsCopiedUnchanged : Prop :=
  ∀ (s : State) (v : Byte), s.phase = .tok → s.tok = .lit →
    (s.inPtr.toNat < s.inLen.toNat → s.outPtr.toNat < s.outLen.toNat → s.outLen.toNat ≤ s.cfg.outCap →
      exec (.lit v) s = .next { s with
        outMem := Memory.write s.outMem s.outPtr.toNat v
        hist := Memory.write s.hist (s.outPtr.toNat % 4096) v
        inPtr := s.inPtr + 1#32, outPtr := s.outPtr + 1#32, phase := .win }) ∧
    (s.inLen.toNat ≤ s.inPtr.toNat → exec (.lit v) s = .next { s with phase := .idle, status := 0x24#32 }) ∧
    (s.engineTurn = true → s.inPtr.toNat < s.inLen.toNat → inByte s s.inPtr.toNat = some v →
      step s = exec (.lit v) s.popTurn)

/-- R111, R113: BREFS completes: two bytes consumed, the copy set up `d + 1` bytes back with length `n + 2`. -/
def Obligations.ShortReferenceSetsUpTheCopy : Prop :=
  ∀ (s : State) (n : BitVec 4) (d : BitVec 12), n ≠ 0#4 → s.phase = .tok → s.tok = .ref →
    s.inPtr.toNat + 2 ≤ s.inLen.toNat → d.toNat + 1 ≤ s.outPtr.toNat →
    ∃ t, exec (.brefs n d) s = .next t ∧
      t = { s with
        inPtr := s.inPtr + 2#32, copySrc := s.outPtr - BitVec.ofNat 32 (d.toNat + 1)
        copyRem := BitVec.ofNat 9 (n.toNat + 2), phase := .copy } ∧
      t.copySrc.toNat = s.outPtr.toNat - (d.toNat + 1) ∧ t.copyRem.toNat = n.toNat + 2

/-- R112, R113: BREFL completes: three bytes consumed, the copy set up `d + 1` bytes back with length `e + 18`. -/
def Obligations.LongReferenceSetsUpTheCopy : Prop :=
  ∀ (s : State) (d : BitVec 12) (e : Byte), s.phase = .tok → s.tok = .ref →
    s.inPtr.toNat + 3 ≤ s.inLen.toNat → d.toNat + 1 ≤ s.outPtr.toNat →
    ∃ t, exec (.brefl d e) s = .next t ∧
      t = { s with
        inPtr := s.inPtr + 3#32, copySrc := s.outPtr - BitVec.ofNat 32 (d.toNat + 1)
        copyRem := BitVec.ofNat 9 (e.toNat + 18), phase := .copy } ∧
      t.copySrc.toNat = s.outPtr.toNat - (d.toNat + 1) ∧ t.copyRem.toNat = e.toNat + 18

/-- R144: a complete back-reference with `d + 1 > out_ptr` is InvalidBackReference. All its bytes are consumed, the cursor
stands just after them, and nothing else changes. -/
def Obligations.ReferenceBeforeTheOutputFails : Prop :=
  ∀ (s : State) (d : BitVec 12), s.phase = .tok → s.tok = .ref → s.outPtr.toNat < d.toNat + 1 →
    (∀ n, n ≠ 0#4 → s.inPtr.toNat + 2 ≤ s.inLen.toNat →
      exec (.brefs n d) s = .next { s with inPtr := s.inPtr + 2#32, phase := .idle, status := 0x34#32 }) ∧
    (∀ e, s.inPtr.toNat + 3 ≤ s.inLen.toNat →
      exec (.brefl d e) s = .next { s with inPtr := s.inPtr + 3#32, phase := .idle, status := 0x34#32 })

/-- R111, R112, R113, R115: the TOK step of a back-reference on the bytes of the stream, with the fields read from them: the
distance, the form, the size and the length. A complete token sets up the copy, or is InvalidBackReference when its source
lies before the output; one cut short after `k` bytes is TruncatedInput, whatever its distance. -/
def Obligations.BackReferenceStepFollowsTheBytes : Prop :=
  ∀ (s : State) (b1 b2 b3 : Byte) (d size len : Nat), s.engineTurn = true → s.expects .ref →
    d = b1.toNat % 16 * 256 + b2.toNat → size = (if b1.toNat / 16 = 0 then 3 else 2) →
    len = (if b1.toNat / 16 = 0 then b3.toNat + 18 else b1.toNat / 16 + 2) →
    (s.holds s.inPtr.toNat ([b1, b2, b3].take size) → d + 1 ≤ s.outPtr.toNat → ∃ t, step s = .next t ∧
      t = { s.popTurn with inPtr := t.inPtr, copySrc := t.copySrc, copyRem := t.copyRem, phase := .copy } ∧
      t.inPtr.toNat = s.inPtr.toNat + size ∧ t.copySrc.toNat = s.outPtr.toNat - (d + 1) ∧ t.copyRem.toNat = len) ∧
    (s.holds s.inPtr.toNat ([b1, b2, b3].take size) → s.outPtr.toNat < d + 1 → ∃ t, step s = .next t ∧
      t = { s.popTurn with inPtr := t.inPtr, phase := .idle, status := 0x34#32 } ∧
      t.inPtr.toNat = s.inPtr.toNat + size) ∧
    (∀ k, k < size → s.holds s.inPtr.toNat ([b1, b2, b3].take k) → s.inPtr.toNat + k = s.inLen.toNat →
      step s = .next { s.popTurn with inPtr := s.inLen, phase := .idle, status := 0x24#32 })

/-- R143: the seven sites of TruncatedInput, as engine steps on the bytes that are there, and the cursor each records. -/
def Obligations.EveryTruncationSiteStops : Prop :=
  ∀ s : State, s.Inv → s.engineTurn = true →
    ((s.phase = .hdr ∧ (s.inLen.toNat < 4 ∨ s.inLen.toNat < 16 ∧
        s.holds 0 [s.cfg.magic.b0, s.cfg.magic.b1, s.cfg.magic.b2, s.cfg.magic.b3])) →
      ∃ t, step s = .next t ∧ t.phase = .idle ∧ t.status = 0x24#32 ∧ t.inPtr = 0#32 ∧ t.outPtr = 0#32 ∧ t.outLen = 0#32) ∧
    (((s.expects .win ∨ s.expects .lit ∨ s.expects .ref) ∧ s.inPtr = s.inLen ∨
      s.expects .ref ∧ s.inPtr.toNat + 1 = s.inLen.toNat ∧ (∃ b, s.holds s.inPtr.toNat [b]) ∨
      s.expects .ref ∧ s.inPtr.toNat + 2 = s.inLen.toNat ∧ (∃ b b', lenNibble b = 0#4 ∧ s.holds s.inPtr.toNat [b, b'])) →
      ∃ t, step s = .next t ∧ t.phase = .idle ∧ t.status = 0x24#32 ∧ t.inPtr = s.inLen ∧ t.outPtr = s.outPtr ∧
        t.outLen = s.outLen)

/-- R52, R165: where the engine needs a byte below `L` that the host never wrote, the run stops with its index; a byte past
IN_CAP counts as never written. -/
def Obligations.UnwrittenInputStopsTheEngine : Prop :=
  ∀ s : State, s.engineTurn = true →
    (∀ i, s.cfg.inCap ≤ i → inByte s i = none) ∧
    ((s.expects .win ∨ s.expects .lit ∨ s.expects .ref) → s.inPtr.toNat < s.inLen.toNat → inByte s s.inPtr.toNat = none →
      step s = .fault (.unwrittenInput s.inPtr.toNat)) ∧
    (∀ b, s.expects .ref → s.holds s.inPtr.toNat [b] → s.inPtr.toNat + 1 < s.inLen.toNat →
      inByte s (s.inPtr.toNat + 1) = none → step s = .fault (.unwrittenInput (s.inPtr.toNat + 1))) ∧
    (∀ b b', s.expects .ref → lenNibble b = 0#4 → s.holds s.inPtr.toNat [b, b'] → s.inPtr.toNat + 2 < s.inLen.toNat →
      inByte s (s.inPtr.toNat + 2) = none → step s = .fault (.unwrittenInput (s.inPtr.toNat + 2))) ∧
    (s.phase = .hdr → 4 ≤ s.inLen.toNat → ∀ k, k < 4 → (∀ j, j < k → (inByte s j).isSome) → inByte s k = none →
      step s = .fault (.unwrittenInput k)) ∧
    (s.phase = .hdr → 16 ≤ s.inLen.toNat →
      s.holds 0 [s.cfg.magic.b0, s.cfg.magic.b1, s.cfg.magic.b2, s.cfg.magic.b3] →
      ∀ k, k < 8 → 4 ≤ k → (∀ j, j < k → (inByte s j).isSome) → inByte s k = none →
      step s = .fault (.unwrittenInput k))

/-! ### The copy unit -/

/-- R120: COPY. With bytes left and output missing one byte moves from HIST to OUT and HIST; otherwise the rest of the
length is discarded and the window is next. -/
def Obligations.CopyStepMovesOneByteOrExits : Prop :=
  ∀ s : State, s.phase = .copy →
    (s.copyRem ≠ 0#9 → s.outPtr ≠ s.outLen → s.outPtr.toNat ≤ s.outLen.toNat → s.outLen.toNat ≤ s.cfg.outCap →
      exec .copy s = .next { s with
        outMem := Memory.write s.outMem s.outPtr.toNat (histRead s (s.copySrc.toNat % 4096))
        hist := Memory.write s.hist (s.outPtr.toNat % 4096) (histRead s (s.copySrc.toNat % 4096))
        copySrc := s.copySrc + 1#32, outPtr := s.outPtr + 1#32, copyRem := s.copyRem - 1#9 }) ∧
    (s.copyRem = 0#9 ∨ s.outPtr = s.outLen → exec .copy s = .next { s with copyRem := 0#9, phase := .win })

/-- R123: in a state of the invariant, the byte a COPY step takes from HIST is `OUT[copy_src]`, which was written. -/
def Obligations.CopyReadsTheOutputByte : Prop :=
  ∀ s : State, s.Inv → s.phase = .copy → s.copyRem ≠ 0#9 → s.outPtr ≠ s.outLen →
    ∃ b t, outByte s s.copySrc.toNat = some b ∧ exec .copy s = .next t ∧ outByte t s.outPtr.toNat = some b ∧
      t.outPtr.toNat = s.outPtr.toNat + 1

/-- R121: a copy of `copy_rem` bytes writes exactly as many as fit below `N`, then returns to the window; when the output is
then complete the decode succeeds, and no index at or past `N` was written. -/
def Obligations.CopyIsClampedAtTheDecodedLength : Prop :=
  ∀ s : State, s.Inv → s.turns = [] → s.phase = .copy →
    ∃ t, run (min s.copyRem.toNat (s.outLen.toNat - s.outPtr.toNat) + 1) s = .next t ∧
      t.phase = .win ∧ t.copyRem = 0#9 ∧ t.inPtr = s.inPtr ∧ t.outLen = s.outLen ∧
      t.outPtr.toNat = s.outPtr.toNat + min s.copyRem.toNat (s.outLen.toNat - s.outPtr.toNat) ∧
      (∀ i, s.outLen.toNat ≤ i → outByte t i = none) ∧
      (s.outLen.toNat - s.outPtr.toNat ≤ s.copyRem.toNat →
        ∃ u, step t = .next u ∧ u.phase = .idle ∧ u.status = 0x2#32 ∧ u.outPtr = s.outLen)

/-- R124: the bytes a copy writes are the `d + 1` bytes before it, again and again: byte `j` is
`OUT[src0 + j mod (d + 1)]`, where `d + 1 = out_ptr - copy_src`. When the length is at most `d + 1` these are the bytes
written before the copy began. -/
def Obligations.OverlappingCopyIsPeriodic : Prop :=
  ∀ (s : State) (k : Nat), s.Inv → s.turns = [] → s.phase = .copy → k ≤ s.copyRem.toNat →
    k ≤ s.outLen.toNat - s.outPtr.toNat →
    ∃ t, run k s = .next t ∧ t.outPtr.toNat = s.outPtr.toNat + k ∧
      ∀ j, j < k → ∃ b, outByte t (s.outPtr.toNat + j) = some b ∧
        outByte s (s.copySrc.toNat + j % (s.outPtr.toNat - s.copySrc.toNat)) = some b

/-! ### The host operations -/

/-- R130: RegRead returns each register exactly while idle. While BUSY, STATUS, IN_LEN, CTRL and the reserved registers are
exact and the other three return a value under no law. Nothing else changes. A misaligned offset is refused. -/
def Obligations.RegisterReadsReturnTheRegister : Prop :=
  ∀ (s : State) (off : BitVec 8),
    (off.toNat % 4 = 0 → (s.phase = .idle ∨ off ≠ 0x0C#8 ∧ off ≠ 0x10#8 ∧ off ≠ 0x14#8) →
      exec (.regRead off) s = .next { s with reply := .word (
        if off = 0x04#8 then s.status else if off = 0x08#8 then s.inLen else if off = 0x0C#8 then s.outLen
        else if off = 0x10#8 then s.inPtr else if off = 0x14#8 then s.outPtr else 0#32) }) ∧
    (s.phase ≠ .idle → off = 0x0C#8 ∨ off = 0x10#8 ∨ off = 0x14#8 →
      ∃ v n, exec (.regRead off) s = .next { s with reply := .word v, draws := n }) ∧
    (off.toNat % 4 ≠ 0 → ∃ r, exec (.regRead off) s = .refused r)

/-- R131: START. It acts on an idle engine when bit 0 is 1, and otherwise the write has no effect. `L`, IN and HIST are
unchanged. -/
def Obligations.StartBeginsAFreshDecode : Prop :=
  ∀ (s : State) (v : Word),
    (v.getLsbD 0 = true → s.phase = .idle → ∃ t, exec (.regWriteCtrl v) s = .next t ∧
      t = { s with
        status := 0x1#32, outLen := 0#32, inPtr := 0#32, outPtr := 0#32, ctrl := 0#8, mask := 0#8, tok := .lit
        copySrc := 0#32, copyRem := 0#9, outMem := t.outMem, phase := .hdr } ∧
      ∀ i, outByte t i = none) ∧
    (v.getLsbD 0 = false ∨ s.phase ≠ .idle → exec (.regWriteCtrl v) s = .next s)

/-- R132: a write to IN_LEN sets `L` while idle and has no effect while BUSY. -/
def Obligations.InputLengthIsWrittenOnlyWhileIdle : Prop :=
  ∀ (s : State) (v : Word),
    (s.phase = .idle → exec (.regWriteInLen v) s = .next { s with inLen := v }) ∧
    (s.phase ≠ .idle → exec (.regWriteInLen v) s = .next s)

/-- R133: a write to a read-only or reserved offset has no effect, in every phase. -/
def Obligations.OtherRegisterWritesDoNothing : Prop :=
  ∀ (s : State) (off : BitVec 8) (v : Word), off.toNat % 4 = 0 → off ≠ 0x00#8 → off ≠ 0x08#8 →
    exec (.regWriteOther off v) s = .next s

/-- R134: InWrite sets one input byte while idle; there is no move for it while BUSY, and an index at or past IN_CAP is
refused. -/
def Obligations.InputWritesLandWhileIdle : Prop :=
  ∀ (s : State) (i : Word) (b : Byte),
    (s.phase = .idle → i.toNat < s.cfg.inCap → ∃ t, exec (.inWrite i b) s = .next t ∧
      t = { s with inMem := t.inMem } ∧ inByte t i.toNat = some b ∧ ∀ j, j ≠ i.toNat → inByte t j = inByte s j) ∧
    (s.phase ≠ .idle → exec (.inWrite i b) s = .refused .inputWriteWhileBusy) ∧
    (s.phase = .idle → s.cfg.inCap ≤ i.toNat → exec (.inWrite i b) s = .refused (.inputIndexOutOfRange i.toNat))

/-- R135: OutRead returns `OUT[i]` exactly when STATUS is DONE and `i < N`; otherwise the output is no result. -/
def Obligations.OutputReadsAreValidOnlyAfterDone : Prop :=
  ∀ (s : State) (i : Word), s.Inv →
    (s.status = 0x2#32 → i.toNat < s.outLen.toNat →
      ∃ b, outByte s i.toNat = some b ∧ exec (.outRead i) s = .next { s with reply := .byte b }) ∧
    (¬ (s.status = 0x2#32 ∧ i.toNat < s.outLen.toNat) → exec (.outRead i) s = .fault (.outputNotValid i.toNat))

/-- R55, R136: a register access of another width, misaligned or past 0xFC, and any operation outside R130 to R135, is
refused; every 32-bit access at an aligned offset up to 0xFC goes through. -/
def Obligations.RegisterAccessesOfAnotherFormAreRefused : Prop :=
  ∀ (s : State) (ts : List Turn) (w : AccessWidth) (a v : Word),
    (s.turns = .host .other :: ts → step s = .refused (.rejected .noSuchOperation)) ∧
    (s.turns = .host (.regRead w a) :: ts ∨ s.turns = .host (.regWrite w a v) :: ts →
      ((w ≠ .w32 ∨ a.toNat % 4 ≠ 0 ∨ 0xFC < a.toNat) → ∃ e, step s = .refused (.rejected e)) ∧
      (w = .w32 → a.toNat % 4 = 0 → a.toNat ≤ 0xFC → ∃ t, step s = .next t))

/-! ### Flags and encodings -/

/-- R140, R141, R24: the STATUS word of each stop: BUSY 0, DONE or ERR alone, and the error code in bits 7:4. -/
def Obligations.StatusWordsAreTheTables : Prop :=
  statusBusy = 0x00000001#32 ∧ statusDone = 0x00000002#32 ∧
  statusError .invalidMagic = 0x00000014#32 ∧ statusError .truncatedInput = 0x00000024#32 ∧
  statusError .invalidBackReference = 0x00000034#32 ∧ statusError .capacityExceeded = 0x00000044#32 ∧
  ∀ e, busyBit (statusError e) = false ∧ doneBit (statusError e) = false ∧ errBit (statusError e) = true ∧
    (errCodeField (statusError e)).toNat = (errorCode e).toNat

/-- R71 to R75: a few words written out from the formats decode to the items they stand for. -/
def Obligations.WrittenWordsDecode : Prop :=
  decode (.stream .win [0xF0#8]) = .ok (.ctrl 0xF0#8) ∧
  decode (.stream .lit [0x58#8]) = .ok (.lit 0x58#8) ∧
  decode (.stream .ref [0x1F#8, 0xFF#8]) = .ok (.brefs 1#4 4095#12) ∧
  decode (.stream .ref [0x70#8, 0x02#8]) = .ok (.brefs 7#4 2#12) ∧
  decode (.stream .ref [0x01#8, 0x02#8, 0x05#8]) = .ok (.brefl 0x102#12 5#8) ∧
  decode (.stream .hdr [0x59#8, 0x61#8, 0x7A#8, 0x30#8, 0x01#8, 0x02#8, 0x03#8, 0x04#8, 0#8, 0#8, 0#8, 0x80#8, 0#8, 0#8,
    0#8, 0#8]) = .ok (.hdr ⟨0x59#8, 0x61#8, 0x7A#8, 0x30#8⟩ 0x01020304#32) ∧
  decode (.host (.regWrite .w32 0x08#32 21#32)) = .ok (.regWriteInLen 21#32)

/-- R70 to R82: every well-formed instruction is decoded from its encoding, at every value of every operand, and a stream
item is decoded with the bytes after it left over. -/
def Obligations.DecodeOfEncodeIsTheInstruction : Prop :=
  ∀ i : Instr, i.wellFormed = true → decode (encode i) = .ok i ∧
    ∀ c bytes, encode i = .stream c bytes → ∀ rest, decodeStream c (bytes ++ rest) = .ok (i, rest)

/-- R75, R78, R80: every three bytes are the start of a back-reference: two of them when the nibble is not 0, else all
three; and the decoded item encodes to exactly the bytes it was read from. -/
def Obligations.EveryReferenceSpellingIsLegal : Prop :=
  ∀ (b1 b2 b3 : Byte) (rest : List Byte), ∃ i tail,
    decodeStream .ref (b1 :: b2 :: b3 :: rest) = .ok (i, tail) ∧ i.wellFormed = true ∧
    encode i = .stream .ref (encodeBytes i) ∧ encodeBytes i ++ tail = b1 :: b2 :: b3 :: rest ∧
    (encodeBytes i).length = if b1.toNat < 16 then 3 else 2

/-- R76, R77: the lengths are 3 to 273, no encoding gives another, and each pair of a length and a distance has exactly one
encoding. -/
def Obligations.EachLengthHasOneEncoding : Prop :=
  (∀ n : BitVec 4, n ≠ 0#4 → shortLen n = n.toNat + 2 ∧ 3 ≤ shortLen n ∧ shortLen n ≤ 17) ∧
  (∀ e : Byte, longLen e = e.toNat + 18 ∧ 18 ≤ longLen e ∧ longLen e ≤ 273) ∧
  ∀ (len : Nat) (d : BitVec 12), 3 ≤ len → len ≤ 273 →
    ∃! i : Instr, (∃ n, n ≠ 0#4 ∧ i = .brefs n d ∧ shortLen n = len) ∨ (∃ e, i = .brefl d e ∧ longLen e = len)

/-! ### Frames -/

/-- What the items that write no output leave unchanged: each changes only the registers its rule names (R90, R101, R102,
R111 to R113), STATUS only by an error stop, and no byte of any space. -/
def Obligations.ItemsWithoutOutputKeepTheRest : Prop :=
  ∀ (s t : State) (i : Instr), exec i s = .next t →
    ((∃ m n, i = .hdr m n) → t = { s with
      phase := t.phase, status := t.status, outLen := t.outLen, inPtr := t.inPtr, outPtr := t.outPtr, mask := t.mask }) ∧
    ((∃ c, i = .ctrl c) → t = { s with
      phase := t.phase, status := t.status, inPtr := t.inPtr, ctrl := t.ctrl, mask := t.mask, tok := t.tok }) ∧
    ((∃ n d, i = .brefs n d) ∨ (∃ d e, i = .brefl d e) → t = { s with
      phase := t.phase, status := t.status, inPtr := t.inPtr, copySrc := t.copySrc, copyRem := t.copyRem }) ∧
    ((∃ m n, i = .hdr m n) ∨ (∃ c, i = .ctrl c) ∨ (∃ n d, i = .brefs n d) ∨ (∃ d e, i = .brefl d e) →
      (t.status = s.status ∨ t.phase = .idle ∧ ∃ e, t.status = statusError e) ∧
      ∀ a, inByte t a = inByte s a ∧ outByte t a = outByte s a ∧ histRead t a = histRead s a)

/-- What the two items that write output leave unchanged (R110, R120, R122): every register but the ones named, every byte
of IN, every byte of OUT but the one at the output cursor, every slot of HIST but the one of that index; and all of the
spaces where the item writes nothing (a truncated literal, the end of a copy). -/
def Obligations.OutputItemsWriteOnlyAtTheCursor : Prop :=
  ∀ (s t : State) (i : Instr), exec i s = .next t →
    ((∃ v, i = .lit v) → t = { s with
      phase := t.phase, status := t.status, inPtr := t.inPtr, outPtr := t.outPtr, outMem := t.outMem, hist := t.hist } ∧
      (t.status = s.status ∨ t.phase = .idle ∧ ∃ e, t.status = statusError e)) ∧
    (i = .copy → t = { s with
      phase := t.phase, copySrc := t.copySrc, copyRem := t.copyRem, outPtr := t.outPtr, outMem := t.outMem
      hist := t.hist }) ∧
    ((∃ v, i = .lit v) ∨ i = .copy →
      (∀ a, inByte t a = inByte s a) ∧
      (∀ a, a ≠ s.outPtr.toNat → outByte t a = outByte s a) ∧
      (∀ j, j ≠ histSlot s.outPtr.toNat → histRead t j = histRead s j) ∧
      (t.outPtr = s.outPtr → ∀ a, outByte t a = outByte s a ∧ histRead t a = histRead s a))

/-- What the host operations leave unchanged (R130 to R136): reads change only what they return, writes only what they
name; HIST, the control window and the copy registers are reached by none but START. -/
def Obligations.HostOperationsKeepTheRest : Prop :=
  ∀ (s t : State) (i : Instr), exec i s = .next t →
    ((∃ off, i = .regRead off) ∨ (∃ k, i = .outRead k) → t = { s with reply := t.reply, draws := t.draws }) ∧
    ((∃ v, i = .regWriteInLen v) → t = { s with inLen := t.inLen }) ∧
    ((∃ off v, i = .regWriteOther off v) → t = s) ∧
    (∀ k b, i = .inWrite k b → t = { s with inMem := t.inMem } ∧ ∀ a, a ≠ k.toNat → inByte t a = inByte s a) ∧
    ((∃ v, i = .regWriteCtrl v) → t.cfg = s.cfg ∧ t.inLen = s.inLen ∧ t.draws = s.draws ∧ t.reply = s.reply ∧
      t.turns = s.turns ∧ ∀ a, inByte t a = inByte s a ∧ histRead t a = histRead s a)

/-- R122: every output write also writes HIST, with the same byte, at its index mod 4096, in the same step; nothing else
writes HIST, and nothing but START takes output away. -/
def Obligations.HistoryIsWrittenWithTheOutput : Prop :=
  ∀ s t : State, step s = .next t → s.turns.head? ≠ some .reset →
    ((∀ j, histRead t j = histRead s j) ∧ ((∀ i, outByte t i = outByte s i) ∨ (∀ i, outByte t i = none) ∧ t.phase = .hdr)) ∨
    ∃ v, (∀ i, outByte t i = if i = s.outPtr.toNat then some v else outByte s i) ∧
      (∀ j, histRead t j = if j = s.outPtr.toNat % 4096 then v else histRead s j) ∧ t.outPtr = s.outPtr + 1#32

/-! ### Rules of the whole machine -/

/-- R25, R36, R64: while a decode runs, no step but a reset changes `L` or a byte of IN; and no step at all changes the
configuration (R21). -/
def Obligations.InputIsFrozenWhileBusy : Prop :=
  ∀ s t : State, step s = .next t → t.cfg = s.cfg ∧
    (s.phase ≠ .idle → s.turns.head? ≠ some .reset → t.inLen = s.inLen ∧ ∀ i, inByte t i = inByte s i)

/-- R30, R149, R157, R162: only a 32-bit write of 1 to CTRL.START takes the engine out of IDLE, and into the header
parser. -/
def Obligations.OnlyStartLeavesIdle : Prop :=
  ∀ s t : State, step s = .next t → s.phase = .idle → t.phase ≠ .idle →
    t.phase = .hdr ∧ t.status = 0x1#32 ∧
      ∃ v ts, s.turns = .host (.regWrite .w32 0x00#32 v) :: ts ∧ v.getLsbD 0 = true

/-- R161, R149, R23: only the end of the decode (success at `out_ptr = N`, or an error) or a hardware reset takes the engine
into IDLE: the host has no cancel. -/
def Obligations.OnlyTheEndOrAResetStopsADecode : Prop :=
  ∀ s t : State, step s = .next t → s.phase ≠ .idle → t.phase = .idle →
    s.turns.head? = some .reset ∨
    s.engineTurn = true ∧ (s.phase = .win ∧ s.outPtr = s.outLen ∧ t.status = statusDone ∨ ∃ e, t.status = statusError e)

/-- R131 to R136: no host operation touches a running decode: it changes what the host has read and nothing else. -/
def Obligations.HostNeverDisturbsADecode : Prop :=
  ∀ (s t : State) (a : HostAccess) (ts : List Turn), s.turns = .host a :: ts → s.phase ≠ .idle → step s = .next t →
    t = { s with turns := ts, reply := t.reply, draws := t.draws }

/-- R147: what each stop leaves for the host to read, by the STATUS it sets. -/
def Obligations.EveryStopRecordsItsCursors : Prop :=
  ∀ s t : State, s.Inv → step s = .next t → s.phase ≠ .idle → t.phase = .idle → s.turns.head? ≠ some .reset →
    (t.status = 0x02#32 ∧ t.inPtr = s.inPtr ∧ t.outPtr = t.outLen ∧ t.outLen = s.outLen) ∨
    (t.status = 0x14#32 ∧ t.inPtr = 0#32 ∧ t.outPtr = 0#32 ∧ t.outLen = 0#32) ∨
    (t.status = 0x24#32 ∧ s.phase = .hdr ∧ t.inPtr = 0#32 ∧ t.outPtr = 0#32 ∧ t.outLen = 0#32) ∨
    (t.status = 0x24#32 ∧ s.inPayload ∧ t.inPtr = t.inLen ∧ t.outPtr = s.outPtr ∧ t.outLen = s.outLen) ∨
    (t.status = 0x34#32 ∧ s.expects .ref ∧ (t.inPtr = s.inPtr + 2#32 ∨ t.inPtr = s.inPtr + 3#32) ∧
      t.outPtr = s.outPtr ∧ t.outLen = s.outLen) ∨
    (t.status = 0x44#32 ∧ t.inPtr = 0#32 ∧ t.outPtr = 0#32 ∧ t.cfg.outCap < t.outLen.toNat)

/-- R26, R27: during a decode the input cursor moves on by at most 3 and only on an engine step of the payload, the output
cursor by at most 1, and neither passes its bound. -/
def Obligations.CursorsOnlyAdvance : Prop :=
  ∀ s t : State, s.Inv → step s = .next t → s.inPayload → s.turns.head? ≠ some .reset →
    s.inPtr.toNat ≤ t.inPtr.toNat ∧ t.inPtr.toNat ≤ s.inPtr.toNat + 3 ∧ t.inPtr.toNat ≤ t.inLen.toNat ∧
    s.outPtr.toNat ≤ t.outPtr.toNat ∧ t.outPtr.toNat ≤ s.outPtr.toNat + 1 ∧ t.outPtr.toNat ≤ t.outLen.toNat ∧
    t.outLen = s.outLen ∧ (s.engineTurn = false → t.inPtr = s.inPtr ∧ t.outPtr = s.outPtr)

/-- R37, R53: a written output byte is never overwritten: only START and a reset take it away. -/
def Obligations.OutputBytesAreWrittenOnce : Prop :=
  ∀ s t : State, s.Inv → step s = .next t →
    s.turns.head? = some .reset ∨ (s.phase = .idle ∧ t.phase = .hdr) ∨
    ∀ i b, outByte s i = some b → outByte t i = some b

/-- R24: STATUS holds one of its seven values in every state a run reaches, BUSY is 1 exactly when a decode runs, and at
most one of BUSY, DONE and ERR is 1. -/
def Obligations.StatusStaysALegalValue : Prop :=
  State.reset.statusLegal ∧ (∀ s t : State, s.statusLegal → step s = .next t → t.statusLegal) ∧
  ∀ s : State, s.statusLegal → (busyBit s.status = true ↔ s.phase ≠ .idle) ∧
    (doneBit s.status = true → busyBit s.status = false ∧ errBit s.status = false) ∧
    (errBit s.status = true → busyBit s.status = false) ∧ (errBit s.status = false → errCodeField s.status = 0#4)

/-- The invariant holds after reset. -/
def Obligations.ResetMeetsTheInvariant : Prop := State.reset.Inv

/-- Every step, of the engine, of the host or of a reset, keeps the invariant: the canonical form of the spaces (R50), the
ranges of every counter (R57), the legal values of STATUS (R24) and of the mask (R32), the capacity (R94), the extent of the
output (R37) and the agreement of HIST with the last 4096 output bytes (R123). -/
def Obligations.EveryStepKeepsTheInvariant : Prop :=
  ∀ s t : State, s.Inv → step s = .next t → t.Inv

/-- R172: with its input resident and the outside doing nothing more, a started decode ends, at DONE or at an error, within
`4N + 5` engine steps. -/
def Obligations.EveryDecodeEndsInTime : Prop :=
  ∀ s : State, s.Inv → s.turns = [] → s.phase = .hdr → s.resident →
    ∃ k t, k ≤ 4 * t.outLen.toNat + 5 ∧ run k s = .next t ∧ t.phase = .idle ∧
      (t.status = statusDone ∨ ∃ e, t.status = statusError e)

/-- R150, R93: the outcome of a decode is a function of MAGIC, OUT_CAP, `L` and IN[0..L-1], of which the reserved bytes do
not count: two started engines that agree on these, whatever their HIST, free values and earlier outputs and whatever the
host does meanwhile, stop with the same STATUS, cursors and output. -/
def Obligations.DecodeIsDeterministic : Prop :=
  ∀ s₁ s₂ : State, s₁.Inv → s₂.Inv → .reset ∉ s₁.turns → .reset ∉ s₂.turns → s₁.phase = .hdr → s₂.phase = .hdr →
    s₁.cfg.magic = s₂.cfg.magic → s₁.cfg.outCap = s₂.cfg.outCap → s₁.inLen = s₂.inLen →
    (∀ i, i < s₁.inLen.toNat → i < 8 ∨ 16 ≤ i → inByte s₁ i = inByte s₂ i) →
    ∀ k₁ k₂ t₁ t₂, decodeRun k₁ s₁ = .next t₁ → t₁.phase = .idle → decodeRun k₂ s₂ = .next t₂ → t₂.phase = .idle →
      t₁.status = t₂.status ∧ t₁.inPtr = t₂.inPtr ∧ t₁.outPtr = t₂.outPtr ∧ t₁.outLen = t₂.outLen ∧
      ∀ i, outByte t₁ i = outByte t₂ i
end

