-- ==== Sys2Proof/Laws/Decode.lean ====
section
/-!
SUPPORT. The bit fields of the encodings: what the encoder puts in, the decoder takes out.
-/

namespace Sys2Proof

/-- The length nibble of the first byte of a back-reference. -/
@[simp] theorem lenNibble_refByte1 (n : BitVec 4) (d : BitVec 12) : lenNibble (refByte1 n d) = n := by
  ext i hi
  simp only [lenNibble, refByte1]
  simp [BitVec.getElem_extractLsb', BitVec.getLsbD_or, BitVec.getLsbD_shiftLeft, BitVec.getLsbD_setWidth]
  have : d.getLsbD (8 + (4 + i)) = false := BitVec.getLsbD_of_ge _ _ (by omega)
  have h₁ : 4 + i < 8 := by omega
  have h₂ : i < 8 := by omega
  simp [this, h₁, h₂, hi]

/-- The distance field of the two bytes of a back-reference. -/
@[simp] theorem distField_refBytes (n : BitVec 4) (d : BitVec 12) :
    distField (refByte1 n d) (refByte2 d) = d := by
  ext i hi
  simp only [distField, refByte1, refByte2]
  interval_cases i <;>
    simp

/-- A big-endian field reads back (R54). -/
@[simp] theorem be32_beByte (w : Word) : be32 (beByte w 0) (beByte w 1) (beByte w 2) (beByte w 3) = w := by
  ext i hi
  simp only [be32, beByte]
  interval_cases i <;>
    simp

/-- An aligned offset is decoded at the only width and place it has (R55). -/
theorem decodeOffset_w32 {off : BitVec 8} (h : offAligned off = true) :
    decodeOffset .w32 (off.setWidth 32) = .ok off := by
  have h1 : ¬ (0xFF < (off.setWidth 32).toNat) := by
    have := off.isLt
    simp [BitVec.toNat_setWidth]
    omega
  have h2 : (off.setWidth 32).setWidth 8 = off := by
    ext i hi
    simp
  simp only [decodeOffset, if_neg h1, h2, h]
  simp

/-- Everything a register access can decode to. -/
theorem decodeOffset_ok {w : AccessWidth} {a : Word} {off : BitVec 8} (h : decodeOffset w a = .ok off) :
    w = .w32 ∧ a.toNat ≤ 0xFF ∧ off = a.setWidth 8 ∧ offAligned off = true := by
  unfold decodeOffset at h
  split at h
  · cases h
  · split at h
    · cases h
    · split at h
      · cases h
        exact ⟨by simp_all, by omega, rfl, ‹_›⟩
      · cases h

/-! ### What each context decodes to (R79) -/

theorem decodeStream_hdr_ok {bytes rest : List Byte} {i : Instr} (h : decodeStream .hdr bytes = .ok (i, rest)) :
    ∃ m n, i = .hdr m n := by
  unfold decodeStream at h
  split at h <;> simp_all
  exact ⟨_, _, h.1.symm⟩

theorem decodeStream_win_ok {bytes rest : List Byte} {i : Instr} (h : decodeStream .win bytes = .ok (i, rest)) :
    ∃ c, i = .ctrl c := by
  unfold decodeStream at h
  split at h <;> simp_all
  exact ⟨_, h.1.symm⟩

theorem decodeStream_lit_ok {bytes rest : List Byte} {i : Instr} (h : decodeStream .lit bytes = .ok (i, rest)) :
    ∃ v, i = .lit v := by
  unfold decodeStream at h
  split at h <;> simp_all
  exact ⟨_, h.1.symm⟩

theorem decodeStream_ref_ok {bytes rest : List Byte} {i : Instr} (h : decodeStream .ref bytes = .ok (i, rest)) :
    (∃ n d, n ≠ 0#4 ∧ i = .brefs n d) ∨ (∃ d e, i = .brefl d e) := by
  unfold decodeStream at h
  split at h <;> simp_all
  split at h
  · split at h <;> simp_all
    exact .inr ⟨_, _, h.1.symm⟩
  · simp_all
    exact .inl ⟨_, ‹_›, _, h.1.symm⟩

end Sys2Proof
end

