-- ==== Sys2Proof/Laws/State.lean ====
section
/-!
SUPPORT. One lemma per field per named update of the state, true by rfl, so that no later proof unfolds an update.
-/

namespace Sys2Proof.Machine

@[simp] theorem raiseError_cfg (e : ErrorKind) (s : State) : (raiseError e s).cfg = s.cfg := rfl
@[simp] theorem raiseError_phase (e : ErrorKind) (s : State) : (raiseError e s).phase = .idle := rfl
@[simp] theorem raiseError_status (e : ErrorKind) (s : State) : (raiseError e s).status = statusError e := rfl
@[simp] theorem raiseError_inLen (e : ErrorKind) (s : State) : (raiseError e s).inLen = s.inLen := rfl
@[simp] theorem raiseError_outLen (e : ErrorKind) (s : State) : (raiseError e s).outLen = s.outLen := rfl
@[simp] theorem raiseError_inPtr (e : ErrorKind) (s : State) : (raiseError e s).inPtr = s.inPtr := rfl
@[simp] theorem raiseError_outPtr (e : ErrorKind) (s : State) : (raiseError e s).outPtr = s.outPtr := rfl
@[simp] theorem raiseError_ctrl (e : ErrorKind) (s : State) : (raiseError e s).ctrl = s.ctrl := rfl
@[simp] theorem raiseError_mask (e : ErrorKind) (s : State) : (raiseError e s).mask = s.mask := rfl
@[simp] theorem raiseError_tok (e : ErrorKind) (s : State) : (raiseError e s).tok = s.tok := rfl
@[simp] theorem raiseError_copySrc (e : ErrorKind) (s : State) : (raiseError e s).copySrc = s.copySrc := rfl
@[simp] theorem raiseError_copyRem (e : ErrorKind) (s : State) : (raiseError e s).copyRem = s.copyRem := rfl
@[simp] theorem raiseError_hist (e : ErrorKind) (s : State) : (raiseError e s).hist = s.hist := rfl
@[simp] theorem raiseError_inMem (e : ErrorKind) (s : State) : (raiseError e s).inMem = s.inMem := rfl
@[simp] theorem raiseError_outMem (e : ErrorKind) (s : State) : (raiseError e s).outMem = s.outMem := rfl
@[simp] theorem raiseError_histSeed (e : ErrorKind) (s : State) : (raiseError e s).histSeed = s.histSeed := rfl
@[simp] theorem raiseError_draws (e : ErrorKind) (s : State) : (raiseError e s).draws = s.draws := rfl
@[simp] theorem raiseError_reply (e : ErrorKind) (s : State) : (raiseError e s).reply = s.reply := rfl
@[simp] theorem raiseError_turns (e : ErrorKind) (s : State) : (raiseError e s).turns = s.turns := rfl

@[simp] theorem finish_cfg (s : State) : (finish s).cfg = s.cfg := rfl
@[simp] theorem finish_phase (s : State) : (finish s).phase = .idle := rfl
@[simp] theorem finish_status (s : State) : (finish s).status = statusDone := rfl
@[simp] theorem finish_inLen (s : State) : (finish s).inLen = s.inLen := rfl
@[simp] theorem finish_outLen (s : State) : (finish s).outLen = s.outLen := rfl
@[simp] theorem finish_inPtr (s : State) : (finish s).inPtr = s.inPtr := rfl
@[simp] theorem finish_outPtr (s : State) : (finish s).outPtr = s.outPtr := rfl
@[simp] theorem finish_ctrl (s : State) : (finish s).ctrl = s.ctrl := rfl
@[simp] theorem finish_mask (s : State) : (finish s).mask = s.mask := rfl
@[simp] theorem finish_tok (s : State) : (finish s).tok = s.tok := rfl
@[simp] theorem finish_copySrc (s : State) : (finish s).copySrc = s.copySrc := rfl
@[simp] theorem finish_copyRem (s : State) : (finish s).copyRem = s.copyRem := rfl
@[simp] theorem finish_hist (s : State) : (finish s).hist = s.hist := rfl
@[simp] theorem finish_inMem (s : State) : (finish s).inMem = s.inMem := rfl
@[simp] theorem finish_outMem (s : State) : (finish s).outMem = s.outMem := rfl
@[simp] theorem finish_histSeed (s : State) : (finish s).histSeed = s.histSeed := rfl
@[simp] theorem finish_draws (s : State) : (finish s).draws = s.draws := rfl
@[simp] theorem finish_reply (s : State) : (finish s).reply = s.reply := rfl
@[simp] theorem finish_turns (s : State) : (finish s).turns = s.turns := rfl

@[simp] theorem selectBit_cfg (s : State) : (selectBit s).cfg = s.cfg := rfl
@[simp] theorem selectBit_phase (s : State) : (selectBit s).phase = .tok := rfl
@[simp] theorem selectBit_status (s : State) : (selectBit s).status = s.status := rfl
@[simp] theorem selectBit_inLen (s : State) : (selectBit s).inLen = s.inLen := rfl
@[simp] theorem selectBit_outLen (s : State) : (selectBit s).outLen = s.outLen := rfl
@[simp] theorem selectBit_inPtr (s : State) : (selectBit s).inPtr = s.inPtr := rfl
@[simp] theorem selectBit_outPtr (s : State) : (selectBit s).outPtr = s.outPtr := rfl
@[simp] theorem selectBit_ctrl (s : State) : (selectBit s).ctrl = s.ctrl := rfl
@[simp] theorem selectBit_mask (s : State) : (selectBit s).mask = maskNext s.mask := rfl
@[simp] theorem selectBit_tok (s : State) : (selectBit s).tok = tokOf s.ctrl s.mask := rfl
@[simp] theorem selectBit_copySrc (s : State) : (selectBit s).copySrc = s.copySrc := rfl
@[simp] theorem selectBit_copyRem (s : State) : (selectBit s).copyRem = s.copyRem := rfl
@[simp] theorem selectBit_hist (s : State) : (selectBit s).hist = s.hist := rfl
@[simp] theorem selectBit_inMem (s : State) : (selectBit s).inMem = s.inMem := rfl
@[simp] theorem selectBit_outMem (s : State) : (selectBit s).outMem = s.outMem := rfl
@[simp] theorem selectBit_histSeed (s : State) : (selectBit s).histSeed = s.histSeed := rfl
@[simp] theorem selectBit_draws (s : State) : (selectBit s).draws = s.draws := rfl
@[simp] theorem selectBit_reply (s : State) : (selectBit s).reply = s.reply := rfl
@[simp] theorem selectBit_turns (s : State) : (selectBit s).turns = s.turns := rfl

@[simp] theorem startDecode_cfg (s : State) : (startDecode s).cfg = s.cfg := rfl
@[simp] theorem startDecode_phase (s : State) : (startDecode s).phase = .hdr := rfl
@[simp] theorem startDecode_status (s : State) : (startDecode s).status = statusBusy := rfl
@[simp] theorem startDecode_inLen (s : State) : (startDecode s).inLen = s.inLen := rfl
@[simp] theorem startDecode_outLen (s : State) : (startDecode s).outLen = 0#32 := rfl
@[simp] theorem startDecode_inPtr (s : State) : (startDecode s).inPtr = 0#32 := rfl
@[simp] theorem startDecode_outPtr (s : State) : (startDecode s).outPtr = 0#32 := rfl
@[simp] theorem startDecode_ctrl (s : State) : (startDecode s).ctrl = 0x00#8 := rfl
@[simp] theorem startDecode_mask (s : State) : (startDecode s).mask = 0x00#8 := rfl
@[simp] theorem startDecode_tok (s : State) : (startDecode s).tok = .lit := rfl
@[simp] theorem startDecode_copySrc (s : State) : (startDecode s).copySrc = 0#32 := rfl
@[simp] theorem startDecode_copyRem (s : State) : (startDecode s).copyRem = 0#9 := rfl
@[simp] theorem startDecode_hist (s : State) : (startDecode s).hist = s.hist := rfl
@[simp] theorem startDecode_inMem (s : State) : (startDecode s).inMem = s.inMem := rfl
@[simp] theorem startDecode_outMem (s : State) : (startDecode s).outMem = [] := rfl
@[simp] theorem startDecode_histSeed (s : State) : (startDecode s).histSeed = s.histSeed := rfl
@[simp] theorem startDecode_draws (s : State) : (startDecode s).draws = s.draws := rfl
@[simp] theorem startDecode_reply (s : State) : (startDecode s).reply = s.reply := rfl
@[simp] theorem startDecode_turns (s : State) : (startDecode s).turns = s.turns := rfl

@[simp] theorem hardwareReset_cfg (s : State) : (hardwareReset s).cfg = s.cfg := rfl
@[simp] theorem hardwareReset_phase (s : State) : (hardwareReset s).phase = .idle := rfl
@[simp] theorem hardwareReset_status (s : State) : (hardwareReset s).status = 0#32 := rfl
@[simp] theorem hardwareReset_inLen (s : State) : (hardwareReset s).inLen = 0#32 := rfl
@[simp] theorem hardwareReset_outLen (s : State) : (hardwareReset s).outLen = 0#32 := rfl
@[simp] theorem hardwareReset_inPtr (s : State) : (hardwareReset s).inPtr = 0#32 := rfl
@[simp] theorem hardwareReset_outPtr (s : State) : (hardwareReset s).outPtr = 0#32 := rfl
@[simp] theorem hardwareReset_ctrl (s : State) : (hardwareReset s).ctrl = 0x00#8 := rfl
@[simp] theorem hardwareReset_mask (s : State) : (hardwareReset s).mask = 0x00#8 := rfl
@[simp] theorem hardwareReset_tok (s : State) : (hardwareReset s).tok = .lit := rfl
@[simp] theorem hardwareReset_copySrc (s : State) : (hardwareReset s).copySrc = 0#32 := rfl
@[simp] theorem hardwareReset_copyRem (s : State) : (hardwareReset s).copyRem = 0#9 := rfl
@[simp] theorem hardwareReset_hist (s : State) : (hardwareReset s).hist = [] := rfl
@[simp] theorem hardwareReset_inMem (s : State) : (hardwareReset s).inMem = [] := rfl
@[simp] theorem hardwareReset_outMem (s : State) : (hardwareReset s).outMem = [] := rfl
@[simp] theorem hardwareReset_histSeed (s : State) : (hardwareReset s).histSeed = s.histSeed + 1 := rfl
@[simp] theorem hardwareReset_draws (s : State) : (hardwareReset s).draws = s.draws := rfl
@[simp] theorem hardwareReset_reply (s : State) : (hardwareReset s).reply = s.reply := rfl
@[simp] theorem hardwareReset_turns (s : State) : (hardwareReset s).turns = s.turns := rfl

@[simp] theorem putByte_cfg (v : Byte) (s : State) : (putByte v s).cfg = s.cfg := rfl
@[simp] theorem putByte_phase (v : Byte) (s : State) : (putByte v s).phase = s.phase := rfl
@[simp] theorem putByte_status (v : Byte) (s : State) : (putByte v s).status = s.status := rfl
@[simp] theorem putByte_inLen (v : Byte) (s : State) : (putByte v s).inLen = s.inLen := rfl
@[simp] theorem putByte_outLen (v : Byte) (s : State) : (putByte v s).outLen = s.outLen := rfl
@[simp] theorem putByte_inPtr (v : Byte) (s : State) : (putByte v s).inPtr = s.inPtr := rfl
@[simp] theorem putByte_outPtr (v : Byte) (s : State) : (putByte v s).outPtr = s.outPtr + 1#32 := rfl
@[simp] theorem putByte_ctrl (v : Byte) (s : State) : (putByte v s).ctrl = s.ctrl := rfl
@[simp] theorem putByte_mask (v : Byte) (s : State) : (putByte v s).mask = s.mask := rfl
@[simp] theorem putByte_tok (v : Byte) (s : State) : (putByte v s).tok = s.tok := rfl
@[simp] theorem putByte_copySrc (v : Byte) (s : State) : (putByte v s).copySrc = s.copySrc := rfl
@[simp] theorem putByte_copyRem (v : Byte) (s : State) : (putByte v s).copyRem = s.copyRem := rfl
@[simp] theorem putByte_hist (v : Byte) (s : State) : (putByte v s).hist = Memory.write s.hist (histSlot s.outPtr.toNat) v := rfl
@[simp] theorem putByte_inMem (v : Byte) (s : State) : (putByte v s).inMem = s.inMem := rfl
@[simp] theorem putByte_outMem (v : Byte) (s : State) : (putByte v s).outMem = Memory.write s.outMem s.outPtr.toNat v := rfl
@[simp] theorem putByte_histSeed (v : Byte) (s : State) : (putByte v s).histSeed = s.histSeed := rfl
@[simp] theorem putByte_draws (v : Byte) (s : State) : (putByte v s).draws = s.draws := rfl
@[simp] theorem putByte_reply (v : Byte) (s : State) : (putByte v s).reply = s.reply := rfl
@[simp] theorem putByte_turns (v : Byte) (s : State) : (putByte v s).turns = s.turns := rfl

@[simp] theorem copyExit_cfg (s : State) : (copyExit s).cfg = s.cfg := rfl
@[simp] theorem copyExit_phase (s : State) : (copyExit s).phase = .win := rfl
@[simp] theorem copyExit_status (s : State) : (copyExit s).status = s.status := rfl
@[simp] theorem copyExit_inLen (s : State) : (copyExit s).inLen = s.inLen := rfl
@[simp] theorem copyExit_outLen (s : State) : (copyExit s).outLen = s.outLen := rfl
@[simp] theorem copyExit_inPtr (s : State) : (copyExit s).inPtr = s.inPtr := rfl
@[simp] theorem copyExit_outPtr (s : State) : (copyExit s).outPtr = s.outPtr := rfl
@[simp] theorem copyExit_ctrl (s : State) : (copyExit s).ctrl = s.ctrl := rfl
@[simp] theorem copyExit_mask (s : State) : (copyExit s).mask = s.mask := rfl
@[simp] theorem copyExit_tok (s : State) : (copyExit s).tok = s.tok := rfl
@[simp] theorem copyExit_copySrc (s : State) : (copyExit s).copySrc = s.copySrc := rfl
@[simp] theorem copyExit_copyRem (s : State) : (copyExit s).copyRem = 0#9 := rfl
@[simp] theorem copyExit_hist (s : State) : (copyExit s).hist = s.hist := rfl
@[simp] theorem copyExit_inMem (s : State) : (copyExit s).inMem = s.inMem := rfl
@[simp] theorem copyExit_outMem (s : State) : (copyExit s).outMem = s.outMem := rfl
@[simp] theorem copyExit_histSeed (s : State) : (copyExit s).histSeed = s.histSeed := rfl
@[simp] theorem copyExit_draws (s : State) : (copyExit s).draws = s.draws := rfl
@[simp] theorem copyExit_reply (s : State) : (copyExit s).reply = s.reply := rfl
@[simp] theorem copyExit_turns (s : State) : (copyExit s).turns = s.turns := rfl

@[simp] theorem copyByte_cfg (s : State) : (copyByte s).cfg = s.cfg := rfl
@[simp] theorem copyByte_phase (s : State) : (copyByte s).phase = s.phase := rfl
@[simp] theorem copyByte_status (s : State) : (copyByte s).status = s.status := rfl
@[simp] theorem copyByte_inLen (s : State) : (copyByte s).inLen = s.inLen := rfl
@[simp] theorem copyByte_outLen (s : State) : (copyByte s).outLen = s.outLen := rfl
@[simp] theorem copyByte_inPtr (s : State) : (copyByte s).inPtr = s.inPtr := rfl
@[simp] theorem copyByte_outPtr (s : State) : (copyByte s).outPtr = s.outPtr + 1#32 := rfl
@[simp] theorem copyByte_ctrl (s : State) : (copyByte s).ctrl = s.ctrl := rfl
@[simp] theorem copyByte_mask (s : State) : (copyByte s).mask = s.mask := rfl
@[simp] theorem copyByte_tok (s : State) : (copyByte s).tok = s.tok := rfl
@[simp] theorem copyByte_copySrc (s : State) : (copyByte s).copySrc = s.copySrc + 1#32 := rfl
@[simp] theorem copyByte_copyRem (s : State) : (copyByte s).copyRem = s.copyRem - 1#9 := rfl
@[simp] theorem copyByte_hist (s : State) : (copyByte s).hist = Memory.write s.hist (histSlot s.outPtr.toNat) (histRead s (histSlot s.copySrc.toNat)) := rfl
@[simp] theorem copyByte_inMem (s : State) : (copyByte s).inMem = s.inMem := rfl
@[simp] theorem copyByte_outMem (s : State) : (copyByte s).outMem = Memory.write s.outMem s.outPtr.toNat (histRead s (histSlot s.copySrc.toNat)) := rfl
@[simp] theorem copyByte_histSeed (s : State) : (copyByte s).histSeed = s.histSeed := rfl
@[simp] theorem copyByte_draws (s : State) : (copyByte s).draws = s.draws := rfl
@[simp] theorem copyByte_reply (s : State) : (copyByte s).reply = s.reply := rfl
@[simp] theorem copyByte_turns (s : State) : (copyByte s).turns = s.turns := rfl

@[simp] theorem State.popTurn_cfg (s : State) : (s.popTurn).cfg = s.cfg := rfl
@[simp] theorem State.popTurn_phase (s : State) : (s.popTurn).phase = s.phase := rfl
@[simp] theorem State.popTurn_status (s : State) : (s.popTurn).status = s.status := rfl
@[simp] theorem State.popTurn_inLen (s : State) : (s.popTurn).inLen = s.inLen := rfl
@[simp] theorem State.popTurn_outLen (s : State) : (s.popTurn).outLen = s.outLen := rfl
@[simp] theorem State.popTurn_inPtr (s : State) : (s.popTurn).inPtr = s.inPtr := rfl
@[simp] theorem State.popTurn_outPtr (s : State) : (s.popTurn).outPtr = s.outPtr := rfl
@[simp] theorem State.popTurn_ctrl (s : State) : (s.popTurn).ctrl = s.ctrl := rfl
@[simp] theorem State.popTurn_mask (s : State) : (s.popTurn).mask = s.mask := rfl
@[simp] theorem State.popTurn_tok (s : State) : (s.popTurn).tok = s.tok := rfl
@[simp] theorem State.popTurn_copySrc (s : State) : (s.popTurn).copySrc = s.copySrc := rfl
@[simp] theorem State.popTurn_copyRem (s : State) : (s.popTurn).copyRem = s.copyRem := rfl
@[simp] theorem State.popTurn_hist (s : State) : (s.popTurn).hist = s.hist := rfl
@[simp] theorem State.popTurn_inMem (s : State) : (s.popTurn).inMem = s.inMem := rfl
@[simp] theorem State.popTurn_outMem (s : State) : (s.popTurn).outMem = s.outMem := rfl
@[simp] theorem State.popTurn_histSeed (s : State) : (s.popTurn).histSeed = s.histSeed := rfl
@[simp] theorem State.popTurn_draws (s : State) : (s.popTurn).draws = s.draws := rfl
@[simp] theorem State.popTurn_reply (s : State) : (s.popTurn).reply = s.reply := rfl
@[simp] theorem State.popTurn_turns (s : State) : (s.popTurn).turns = s.turns.tail := rfl

end Sys2Proof.Machine
end

