-- ==== Sys2Proof/Laws/Memory.lean ====
section
/-!
SUPPORT. The laws of a byte space: read after write, and that a write keeps the canonical form.
-/

namespace Sys2Proof.Machine

@[simp] theorem Memory.read_nil (i : Nat) : Memory.read [] i = none := rfl

theorem Memory.read_cons (a : Nat) (b : Byte) (m : List Host.Cell) (i : Nat) :
    Memory.read ((a, b) :: m) i = if a = i then some b else Memory.read m i := rfl

/-- What a write does to every read. -/
theorem Memory.read_write (m : List Host.Cell) (i : Nat) (v : Byte) (j : Nat) :
    Memory.read (Memory.write m i v) j = if i = j then some v else Memory.read m j := by
  induction m with
  | nil => rfl
  | cons c m ih =>
    obtain ⟨a, b⟩ := c
    unfold Memory.write
    split
    · simp only [Memory.read_cons]
    · split
      · subst i
        simp only [Memory.read_cons]
        split <;> rfl
      · simp only [Memory.read_cons, ih]
        by_cases ha : a = j
        · subst a
          simp [*]
        · simp [ha]

@[simp] theorem Memory.read_write_same (m : List Host.Cell) (i : Nat) (v : Byte) :
    Memory.read (Memory.write m i v) i = some v := by simp [Memory.read_write]

theorem Memory.read_write_other (m : List Host.Cell) {i j : Nat} (v : Byte) (h : i ≠ j) :
    Memory.read (Memory.write m i v) j = Memory.read m j := by simp [Memory.read_write, h]

/-- The addresses after a write are those before it and the one written. -/
theorem Memory.mem_write {m : List Host.Cell} {i : Nat} {v : Byte} {c : Host.Cell}
    (h : c ∈ Memory.write m i v) : c.1 = i ∨ c ∈ m := by
  induction m with
  | nil => simp_all [Memory.write]
  | cons d m ih =>
    obtain ⟨a, b⟩ := d
    unfold Memory.write at h
    split at h
    · simp at h ⊢
      rcases h with rfl | h
      · simp
      · exact .inr h
    · split at h
      · simp at h ⊢
        rcases h with rfl | h
        · simp
        · exact .inr (.inr h)
      · simp at h ⊢
        rcases h with h | h
        · exact .inr (.inl h)
        · rcases ih h with h | h
          · exact .inl h
          · exact .inr (.inr h)

/-- A write keeps the canonical form. -/
theorem Memory.write_wf {m : List Host.Cell} (h : Memory.wf m) (i : Nat) (v : Byte) :
    Memory.wf (Memory.write m i v) := by
  induction m with
  | nil => simp [Memory.write, Memory.wf]
  | cons c m ih =>
    obtain ⟨a, b⟩ := c
    simp only [Memory.wf, List.map_cons, List.pairwise_cons] at h
    unfold Memory.write
    split
    case isTrue hlt =>
      simp only [Memory.wf, List.map_cons, List.pairwise_cons]
      refine ⟨fun x hx => ?_, h⟩
      rcases List.mem_cons.mp hx with rfl | hx
      · exact hlt
      · exact Nat.lt_trans hlt (h.1 x hx)
    case isFalse hle =>
      split
      case isTrue heq =>
        subst heq
        simpa only [Memory.wf, List.map_cons, List.pairwise_cons] using h
      case isFalse hne =>
        simp only [Memory.wf, List.map_cons, List.pairwise_cons]
        refine ⟨fun x hx => ?_, ih h.2⟩
        obtain ⟨c, hc, rfl⟩ := List.mem_map.mp hx
        rcases Memory.mem_write hc with h' | h'
        · omega
        · exact h.1 _ (List.mem_map_of_mem h')

/-- A run of writes keeps the canonical form. -/
theorem Memory.writeAll_wf {m : List Host.Cell} (h : Memory.wf m) (i : Nat) (bs : List Byte) :
    Memory.wf (Memory.writeAll m i bs) := by
  induction bs generalizing m i with
  | nil => exact h
  | cons b bs ih => exact ih (Memory.write_wf h i b) (i + 1)

/-- A run of writes leaves every byte before it alone. -/
theorem Memory.read_writeAll_below (m : List Host.Cell) (i : Nat) (bs : List Byte) (j : Nat) (h : j < i) :
    Memory.read (Memory.writeAll m i bs) j = Memory.read m j := by
  induction bs generalizing m i with
  | nil => rfl
  | cons b bs ih =>
    rw [Memory.writeAll, ih _ _ (by omega), Memory.read_write_other _ _ (by omega)]

/-- Byte `k` of a run of writes reads back. -/
theorem Memory.read_writeAll (m : List Host.Cell) (i : Nat) (bs : List Byte) (k : Nat) (b : Byte)
    (h : bs[k]? = some b) : Memory.read (Memory.writeAll m i bs) (i + k) = some b := by
  induction bs generalizing m i k with
  | nil => simp at h
  | cons c bs ih =>
    rw [Memory.writeAll]
    cases k with
    | zero =>
      simp at h
      subst h
      rw [Memory.read_writeAll_below _ _ _ _ (by omega), Nat.add_zero, Memory.read_write_same]
    | succ k =>
      have := ih (Memory.write m i c) (i + 1) k (by simpa using h)
      rwa [show i + (k + 1) = i + 1 + k by omega]

end Sys2Proof.Machine
end

