-- ==== Sys2Proof/Laws/Ops.lean ====
section
/-!
SUPPORT. One lemma per shared operation that says everything it can do.
-/

namespace Sys2Proof.Machine

/-! ### The spaces after an output byte -/

theorem outByte_putByte (v : Byte) (s : State) (i : Nat) :
    outByte (putByte v s) i = if s.outPtr.toNat = i then some v else outByte s i :=
  Memory.read_write _ _ _ _

theorem histRead_putByte (v : Byte) (s : State) (j : Nat) :
    histRead (putByte v s) j = if histSlot s.outPtr.toNat = j then v else histRead s j := by
  simp only [histRead, putByte_hist, putByte_histSeed, Memory.read_write]
  by_cases h : histSlot s.outPtr.toNat = j <;> simp [h]

@[simp] theorem inByte_putByte (v : Byte) (s : State) (i : Nat) : inByte (putByte v s) i = inByte s i := rfl

/-! ### The spaces where the turn, or the input cursor, is all that changes -/

@[simp] theorem inByte_popTurn (s : State) (i : Nat) : inByte s.popTurn i = inByte s i := rfl

@[simp] theorem outByte_popTurn (s : State) (i : Nat) : outByte s.popTurn i = outByte s i := rfl

@[simp] theorem histRead_popTurn (s : State) (j : Nat) : histRead s.popTurn j = histRead s j := rfl

theorem histSlot_lt (i : Nat) : histSlot i < histSize := Nat.mod_lt _ (by decide)

/-! ### withRoom, selected -/

theorem withRoom_next {s t : State} {k : Host.Outcome State Fault Refusal} (h : withRoom s k = .next t) :
    s.outPtr.toNat < s.cfg.outCap ∧ k = .next t := by
  unfold withRoom at h
  split at h
  · exact ⟨‹_›, h⟩
  · cases h

theorem withRoom_of_lt {s : State} {k : Host.Outcome State Fault Refusal} (h : s.outPtr.toNat < s.cfg.outCap) :
    withRoom s k = k := if_pos h

theorem selected_next {c : Prop} [Decidable c] {t : State} {k : Host.Outcome State Fault Refusal} (h : selected c k = .next t) :
    c ∧ k = .next t := by
  unfold selected at h
  split at h
  · exact ⟨‹_›, h⟩
  · cases h

theorem selected_of {c : Prop} [Decidable c] (k : Host.Outcome State Fault Refusal) (h : c) : selected c k = k := if_pos h

theorem selected_of_not {c : Prop} [Decidable c] (k : Host.Outcome State Fault Refusal) (h : ¬ c) :
    selected c k = .refused .notSelected := if_neg h

/-! ### consume -/

/-- A cursor below some 32-bit bound moves on without wrapping (R57). -/
theorem toNat_add_one {w : Word} {b : Nat} (h : w.toNat < b) (hb : b ≤ 4294967295) : (w + 1#32).toNat = w.toNat + 1 := by
  have : (1#32).toNat = 1 := rfl
  rw [BitVec.toNat_add, this]
  omega

theorem word_le (w : Word) : w.toNat ≤ 4294967295 := by
  have := w.isLt
  omega

/-- Enough input is left: the bytes are consumed and the rest of the step runs. -/
theorem consume_ok (k : Nat) (s : State) (f : State → Host.Outcome State Fault Refusal)
    (h : s.inPtr.toNat + k ≤ s.inLen.toNat) :
    consume k s f = f { s with inPtr := s.inPtr + BitVec.ofNat 32 k } := by
  induction k generalizing s with
  | zero => simp [consume]
  | succ k ih =>
    have hlt : s.inPtr.toNat < s.inLen.toNat := by omega
    have hs := toNat_add_one hlt (word_le _)
    rw [consume, if_pos hlt, ih _ (by simp only [hs]; omega)]
    congr 2
    have : BitVec.ofNat 32 (k + 1) = 1#32 + BitVec.ofNat 32 k := by
      rw [Nat.add_comm, BitVec.ofNat_add]
    rw [this, BitVec.add_assoc]

/-- Too little input is left: what there is of the item is consumed and TruncatedInput raised (R114, R143). -/
theorem consume_short (k : Nat) (s : State) (f : State → Host.Outcome State Fault Refusal)
    (h₁ : s.inPtr.toNat ≤ s.inLen.toNat) (h₂ : s.inLen.toNat < s.inPtr.toNat + k) :
    consume k s f = .next (raiseError .truncatedInput { s with inPtr := s.inLen }) := by
  induction k generalizing s with
  | zero => omega
  | succ k ih =>
    rw [consume]
    split
    case isTrue hlt =>
      have hs := toNat_add_one hlt (word_le _)
      rw [ih _ (by simp only [hs]; omega) (by simp only [hs]; omega)]
    case isFalse hge =>
      have e : s.inPtr = s.inLen := BitVec.eq_of_toNat_eq (by omega)
      have : ({ s with inPtr := s.inLen } : State) = s := by cases s; simp_all
      rw [this]

/-- Everything `consume` can do: it consumed some `j` bytes, and either all `k` of them and the rest of the step
answered, or fewer and TruncatedInput was raised. -/
theorem consume_cases {k : Nat} {s : State} {f : State → Host.Outcome State Fault Refusal} {r}
    (h : consume k s f = r) :
    ∃ j, j ≤ k ∧ (j = 0 ∨ s.inPtr.toNat + j ≤ s.inLen.toNat) ∧
      ((j = k ∧ r = f { s with inPtr := s.inPtr + BitVec.ofNat 32 j }) ∨
       (j < k ∧ s.inLen.toNat ≤ s.inPtr.toNat + j ∧
          r = .next (raiseError .truncatedInput { s with inPtr := s.inPtr + BitVec.ofNat 32 j }))) := by
  by_cases h₀ : s.inPtr.toNat + k ≤ s.inLen.toNat
  · exact ⟨k, le_rfl, .inr h₀, .inl ⟨rfl, by rw [← h, consume_ok k s f h₀]⟩⟩
  · by_cases h₁ : s.inPtr.toNat ≤ s.inLen.toNat
    · refine ⟨s.inLen.toNat - s.inPtr.toNat, by omega, .inr (by omega), .inr ⟨by omega, by omega, ?_⟩⟩
      have e : s.inPtr + BitVec.ofNat 32 (s.inLen.toNat - s.inPtr.toNat) = s.inLen := by
        apply BitVec.eq_of_toNat_eq
        have := word_le s.inLen
        rw [BitVec.toNat_add, BitVec.toNat_ofNat]
        omega
      rw [← h, consume_short k s f h₁ (by omega), e]
    · cases k with
      | zero => exact ⟨0, le_rfl, .inl rfl, .inl ⟨rfl, by rw [← h]; simp [consume]⟩⟩
      | succ k =>
        refine ⟨0, by omega, .inl rfl, .inr ⟨by omega, by omega, ?_⟩⟩
        rw [← h, consume, if_neg (by omega)]
        simp

/-! ### setupCopy -/

/-- Everything the copy set-up can do (R113). -/
theorem setupCopy_cases (d : BitVec 12) (len : Nat) (s : State) :
    (s.outPtr.toNat < backOf d ∧ setupCopy d len s = raiseError .invalidBackReference s) ∨
    (backOf d ≤ s.outPtr.toNat ∧ setupCopy d len s =
      { s with copySrc := s.outPtr - BitVec.ofNat 32 (backOf d), copyRem := BitVec.ofNat 9 len, phase := .copy }) := by
  unfold setupCopy
  split
  · exact .inl ⟨‹_›, rfl⟩
  · exact .inr ⟨by omega, rfl⟩

/-- The copy source lies `d + 1` below the output cursor (R77). -/
theorem copySource_toNat {p : Word} {d : BitVec 12} (h : backOf d ≤ p.toNat) :
    (p - BitVec.ofNat 32 (backOf d)).toNat = p.toNat - backOf d := by
  have hd := d.isLt
  have hb : (BitVec.ofNat 32 (backOf d)).toNat = backOf d := by
    rw [BitVec.toNat_ofNat]; unfold backOf at *; omega
  rw [BitVec.toNat_sub, hb]
  have := p.isLt
  omega

end Sys2Proof.Machine
end

