-- ==== Sys2Proof/Laws/Engine.lean ====
section
/-!
SUPPORT. What a step is: whose turn it is, and what the fetch supplies.
-/

namespace Sys2Proof.Machine

/-- On the engine's turn a step is one engine step. -/
theorem step_engine {s : State} (h : s.engineTurn = true) : step s = engineStep s.popTurn := by
  unfold step takeTurn State.popTurn
  unfold State.engineTurn at h
  cases hs : s.turns with
  | nil =>
    have : ({ s with turns := [] } : State) = s := by rw [← hs]
    simp [this]
  | cons t ts => cases t <;> simp_all

/-- On the host's turn a step is the host's operation. -/
theorem step_host {s : State} {a : HostAccess} {ts : List Turn} (h : s.turns = .host a :: ts) :
    step s = hostStep a { s with turns := ts } := by
  unfold step takeTurn
  rw [h]

/-- A reset turn. -/
theorem step_reset {s : State} {ts : List Turn} (h : s.turns = .reset :: ts) :
    step s = .next (hardwareReset { s with turns := ts }) := by
  unfold step takeTurn
  rw [h]

/-- Every state is in exactly one of these cases. -/
theorem turn_cases (s : State) :
    s.engineTurn = true ∨ (∃ a ts, s.turns = .host a :: ts) ∨ (∃ ts, s.turns = .reset :: ts) := by
  unfold State.engineTurn
  cases hs : s.turns with
  | nil => simp
  | cons t ts => cases t <;> simp

/-! ### The fetch -/

theorem fetchByte_of_written {s : State} {i : Nat} {b : Byte} (h : i < s.inLen.toNat) (hb : inByte s i = some b) :
    fetchByte s i = .ok b := by
  simp [fetchByte, h, hb]

theorem fetchByte_past {s : State} {i : Nat} (h : s.inLen.toNat ≤ i) : fetchByte s i = .ok 0 :=
  if_neg (by omega)

/-- A fetch of bytes that the stream holds supplies them. -/
theorem fetchBytes_of_holds {s : State} {p : Nat} {bytes : List Byte} (h : s.holds p bytes) :
    fetchBytes s p bytes.length = .ok bytes := by
  induction bytes generalizing p with
  | nil => rfl
  | cons b bs ih =>
    have h0 := h 0 b rfl
    rw [Nat.add_zero] at h0
    have hs : s.holds (p + 1) bs := fun k c hk => by
      have := h (k + 1) c (by simpa using hk)
      rwa [show p + (k + 1) = p + 1 + k by omega] at this
    simp only [List.length_cons, fetchBytes]
    rw [fetchByte_of_written h0.1 h0.2, ih hs]
    rfl

/-- A fetch always supplies as many bytes as were asked for, or stops at an unwritten byte. -/
theorem fetchBytes_length {s : State} {p k : Nat} {bytes : List Byte} (h : fetchBytes s p k = .ok bytes) :
    bytes.length = k := by
  induction k generalizing p bytes with
  | zero => cases h; rfl
  | succ k ih =>
    simp only [fetchBytes] at h
    split at h
    · cases h
    · cases hr : fetchBytes s (p + 1) k with
      | error j => rw [hr] at h; cases h
      | ok r =>
        rw [hr] at h
        cases h
        simp [ih hr]

/-- An input whose bytes are all written never stops the fetch (R165). -/
theorem fetchBytes_resident {s : State} (h : s.resident) (p k : Nat) : ∃ bytes, fetchBytes s p k = .ok bytes := by
  induction k generalizing p with
  | zero => exact ⟨[], rfl⟩
  | succ k ih =>
    obtain ⟨bs, hbs⟩ := ih (p + 1)
    by_cases hp : p < s.inLen.toNat
    · obtain ⟨b, hb⟩ := Option.isSome_iff_exists.mp (h p hp)
      exact ⟨b :: bs, by simp [fetchBytes, fetchByte_of_written hp hb, hbs, Except.map]⟩
    · exact ⟨0 :: bs, by simp [fetchBytes, fetchByte_past (Nat.le_of_not_lt hp), hbs, Except.map]⟩

end Sys2Proof.Machine
end

