-- ==== Sys2Proof/Laws/Exec.lean ====
section
/-!
SUPPORT. One inversion lemma per instruction: if its meaning answers a next state, these are the cases.
-/

namespace Sys2Proof.Machine

/-- HDR (R90). -/
theorem execHdr_next {m : Magic} {n : Word} {s t : State} (h : execHdr m n s = .next t) :
    s.phase = .hdr ∧
      ((s.inLen.toNat < 4 ∧ t = raiseError .truncatedInput s) ∨
       (4 ≤ s.inLen.toNat ∧ m ≠ s.cfg.magic ∧ t = raiseError .invalidMagic s) ∨
       (4 ≤ s.inLen.toNat ∧ s.inLen.toNat < 16 ∧ m = s.cfg.magic ∧ t = raiseError .truncatedInput s) ∨
       (16 ≤ s.inLen.toNat ∧ m = s.cfg.magic ∧ s.cfg.outCap < n.toNat ∧
          t = raiseError .capacityExceeded { s with outLen := n }) ∨
       (16 ≤ s.inLen.toNat ∧ m = s.cfg.magic ∧ n.toNat ≤ s.cfg.outCap ∧
          t = { s with outLen := n, inPtr := 16#32, outPtr := 0#32, mask := 0x00#8, phase := .win })) := by
  obtain ⟨hp, h⟩ := selected_next h
  refine ⟨hp, ?_⟩
  split at h
  · cases h; exact .inl ⟨‹_›, rfl⟩
  · split at h
    · cases h; exact .inr (.inl ⟨by omega, ‹_›, rfl⟩)
    · have hm : m = s.cfg.magic := by simp_all
      split at h
      · cases h
        exact .inr (.inr (.inl ⟨by omega, by simpa [hdrSize] using ‹_›, hm, rfl⟩))
      · have hl : 16 ≤ s.inLen.toNat := by simp [hdrSize] at *; omega
        split at h
        · cases h; exact .inr (.inr (.inr (.inl ⟨hl, hm, ‹_›, rfl⟩)))
        · cases h; exact .inr (.inr (.inr (.inr ⟨hl, hm, by omega, rfl⟩)))

/-- CTRL (R101, R102). -/
theorem execCtrl_next {c : Byte} {s t : State} (h : execCtrl c s = .next t) :
    s.phase = .win ∧ s.mask = 0x00#8 ∧ s.outPtr ≠ s.outLen ∧
      ((s.inPtr.toNat < s.inLen.toNat ∧
          t = selectBit { s with inPtr := s.inPtr + 1#32, ctrl := c, mask := maskTop }) ∨
       (s.inLen.toNat ≤ s.inPtr.toNat ∧ t = raiseError .truncatedInput s)) := by
  obtain ⟨hp, h⟩ := selected_next h
  refine ⟨hp.1, hp.2.1, hp.2.2, ?_⟩
  unfold consume at h
  split at h
  · cases h; exact .inl ⟨‹_›, rfl⟩
  · cases h; exact .inr ⟨by omega, rfl⟩

/-- LIT (R110). -/
theorem execLit_next {v : Byte} {s t : State} (h : execLit v s = .next t) :
    s.phase = .tok ∧ s.tok = .lit ∧
      ((s.inPtr.toNat < s.inLen.toNat ∧ s.outPtr.toNat < s.cfg.outCap ∧
          t = { putByte v { s with inPtr := s.inPtr + 1#32 } with phase := .win }) ∨
       (s.inLen.toNat ≤ s.inPtr.toNat ∧ t = raiseError .truncatedInput s)) := by
  obtain ⟨hp, h⟩ := selected_next h
  refine ⟨hp.1, hp.2, ?_⟩
  unfold consume at h
  split at h
  · obtain ⟨hr, h⟩ := withRoom_next h
    cases h
    exact .inl ⟨‹_›, hr, rfl⟩
  · cases h; exact .inr ⟨by omega, rfl⟩

/-- What the two forms of a back-reference do, once the number of bytes `k` and the length are known (R111 to R115): all
`k` bytes are consumed and the copy is set up or refused, or the input ends after `j` of them. -/
def RefOutcome (k len : Nat) (d : BitVec 12) (s t : State) : Prop :=
  (s.inPtr.toNat + k ≤ s.inLen.toNat ∧ s.outPtr.toNat < backOf d ∧
      t = raiseError .invalidBackReference { s with inPtr := s.inPtr + BitVec.ofNat 32 k }) ∨
  (s.inPtr.toNat + k ≤ s.inLen.toNat ∧ backOf d ≤ s.outPtr.toNat ∧
      t = { s with
            inPtr := s.inPtr + BitVec.ofNat 32 k
            copySrc := s.outPtr - BitVec.ofNat 32 (backOf d)
            copyRem := BitVec.ofNat 9 len
            phase := .copy }) ∨
  (∃ j, j < k ∧ (j = 0 ∨ s.inPtr.toNat + j ≤ s.inLen.toNat) ∧ s.inLen.toNat ≤ s.inPtr.toNat + j ∧
      t = raiseError .truncatedInput { s with inPtr := s.inPtr + BitVec.ofNat 32 j })

theorem consume_setupCopy_next {k len : Nat} {d : BitVec 12} {s t : State} (hk : 0 < k)
    (h : consume k s (fun s₁ => .next (setupCopy d len s₁)) = .next t) : RefOutcome k len d s t := by
  obtain ⟨j, hj, hin, ⟨rfl, ht⟩ | ⟨hlt, hend, ht⟩⟩ := consume_cases h
  · have hin' : s.inPtr.toNat + j ≤ s.inLen.toNat := by omega
    injection ht with ht
    subst ht
    rcases setupCopy_cases d len { s with inPtr := s.inPtr + BitVec.ofNat 32 j } with ⟨hb, e⟩ | ⟨hb, e⟩
    · exact .inl ⟨hin', hb, e⟩
    · exact .inr (.inl ⟨hin', hb, e⟩)
  · injection ht with ht
    exact .inr (.inr ⟨j, hlt, hin, hend, ht⟩)

/-- BREFS (R111). -/
theorem execBrefs_next {n : BitVec 4} {d : BitVec 12} {s t : State} (h : execBrefs n d s = .next t) :
    n ≠ 0#4 ∧ s.phase = .tok ∧ s.tok = .ref ∧ RefOutcome 2 (shortLen n) d s t := by
  unfold execBrefs at h
  split at h
  · cases h
  · obtain ⟨hp, h⟩ := selected_next h
    exact ⟨‹_›, hp.1, hp.2, consume_setupCopy_next (by decide) h⟩

/-- BREFL (R112). -/
theorem execBrefl_next {d : BitVec 12} {e : Byte} {s t : State} (h : execBrefl d e s = .next t) :
    s.phase = .tok ∧ s.tok = .ref ∧ RefOutcome 3 (longLen e) d s t := by
  obtain ⟨hp, h⟩ := selected_next h
  exact ⟨hp.1, hp.2, consume_setupCopy_next (by decide) h⟩

/-- COPY (R120). -/
theorem execCopy_next {s t : State} (h : execCopy s = .next t) :
    s.phase = .copy ∧
      (((s.copyRem = 0#9 ∨ s.outPtr = s.outLen) ∧ t = copyExit s) ∨
       (s.copyRem ≠ 0#9 ∧ s.outPtr ≠ s.outLen ∧ s.outPtr.toNat < s.cfg.outCap ∧ t = copyByte s)) := by
  obtain ⟨hp, h⟩ := selected_next h
  refine ⟨hp, ?_⟩
  split at h
  · cases h; exact .inl ⟨‹_›, rfl⟩
  · rename_i hn
    obtain ⟨hr, h⟩ := withRoom_next h
    cases h
    exact .inr ⟨fun e => hn (.inl e), fun e => hn (.inr e), hr, rfl⟩

/-- RegRead (R130). -/
theorem execRegRead_next {off : BitVec 8} {s t : State} (h : execRegRead off s = .next t) :
    offAligned off = true ∧
      t = { s with reply := .word (regValue off s).1, draws := s.draws + (regValue off s).2 } := by
  unfold execRegRead at h
  split at h
  · cases h; exact ⟨‹_›, rfl⟩
  · cases h

/-- RegWrite.CTRL (R131). -/
theorem execRegWriteCtrl_next {v : Word} {s t : State} (h : execRegWriteCtrl v s = .next t) :
    (v.getLsbD 0 = true ∧ s.phase = .idle ∧ t = startDecode s) ∨
    (¬ (v.getLsbD 0 = true ∧ s.phase = .idle) ∧ t = s) := by
  unfold execRegWriteCtrl at h
  split at h
  · rename_i hc; cases h; exact .inl ⟨hc.1, hc.2, rfl⟩
  · cases h; exact .inr ⟨‹_›, rfl⟩

/-- RegWrite.IN_LEN (R132). -/
theorem execRegWriteInLen_next {v : Word} {s t : State} (h : execRegWriteInLen v s = .next t) :
    (s.phase = .idle ∧ t = { s with inLen := v }) ∨ (s.phase ≠ .idle ∧ t = s) := by
  unfold execRegWriteInLen at h
  split at h
  · cases h; exact .inl ⟨‹_›, rfl⟩
  · cases h; exact .inr ⟨‹_›, rfl⟩

/-- RegWrite.other (R133). -/
theorem execRegWriteOther_next {off : BitVec 8} {v : Word} {s t : State}
    (h : execRegWriteOther off v s = .next t) : offOther off = true ∧ t = s := by
  unfold execRegWriteOther at h
  split at h
  · cases h; exact ⟨‹_›, rfl⟩
  · cases h

/-- InWrite (R134). -/
theorem execInWrite_next {i : Word} {b : Byte} {s t : State} (h : execInWrite i b s = .next t) :
    s.phase = .idle ∧ i.toNat < s.cfg.inCap ∧ t = { s with inMem := Memory.write s.inMem i.toNat b } := by
  unfold execInWrite at h
  split at h
  · cases h
  · rename_i hp
    split at h
    · cases h; exact ⟨by simpa using hp, ‹_›, rfl⟩
    · cases h

/-- OutRead (R135). -/
theorem execOutRead_next {i : Word} {s t : State} (h : execOutRead i s = .next t) :
    s.status = statusDone ∧ i.toNat < s.outLen.toNat ∧
      ∃ b, outByte s i.toNat = some b ∧ t = { s with reply := .byte b } := by
  unfold execOutRead at h
  split at h
  · rename_i hc
    split at h
    · cases h; exact ⟨hc.1, hc.2, _, ‹_›, rfl⟩
    · cases h
  · cases h

/-! ### One host operation -/

/-- Everything a host operation can do when it answers a next state (R130 to R136). -/
theorem hostStep_next {a : HostAccess} {s t : State} (h : hostStep a s = .next t) :
    (∃ off, execRegRead off s = .next t) ∨
    (∃ v, a = .regWrite .w32 0x00#32 v ∧ execRegWriteCtrl v s = .next t) ∨
    (∃ v, execRegWriteInLen v s = .next t) ∨
    t = s ∨
    (∃ i b, execInWrite i b s = .next t) ∨
    (∃ i, execOutRead i s = .next t) := by
  unfold hostStep at h
  cases a with
  | regRead w a =>
    cases ho : decodeOffset w a with
    | error e => simp [decode, decodeHost, ho, Except.map] at h
    | ok off => exact .inl ⟨off, by simpa [decode, decodeHost, ho, Except.map, exec] using h⟩
  | regWrite w a v =>
    cases ho : decodeOffset w a with
    | error e => simp [decode, decodeHost, ho, Except.map] at h
    | ok off =>
      simp only [decode, decodeHost, ho, Except.map, decodeRegWrite] at h
      obtain ⟨rfl, ha, rfl, -⟩ := decodeOffset_ok ho
      split at h
      · rename_i h0
        have : a = 0x00#32 := by
          apply BitVec.eq_of_toNat_eq
          have := congrArg BitVec.toNat h0
          simp at this ⊢
          omega
        exact .inr (.inl ⟨v, by rw [this], h⟩)
      · split at h
        · exact .inr (.inr (.inl ⟨v, h⟩))
        · exact .inr (.inr (.inr (.inl (execRegWriteOther_next (v := v) h).2)))
  | inWrite i b => exact .inr (.inr (.inr (.inr (.inl ⟨i, b, h⟩))))
  | outRead i => exact .inr (.inr (.inr (.inr (.inr ⟨i, h⟩))))
  | other => cases h

/-! ### One engine step -/

/-- Everything an engine step can do when it answers a next state (R30). -/
theorem engineStep_next {s t : State} (h : engineStep s = .next t) :
    (s.phase = .idle ∧ t = s) ∨
    (s.phase = .hdr ∧ ∃ m n, execHdr m n s = .next t) ∨
    (s.phase = .win ∧ s.outPtr = s.outLen ∧ t = finish s) ∨
    (s.phase = .win ∧ s.outPtr ≠ s.outLen ∧ s.mask = 0x00#8 ∧ ∃ c, execCtrl c s = .next t) ∨
    (s.phase = .win ∧ s.outPtr ≠ s.outLen ∧ s.mask ≠ 0x00#8 ∧ t = selectBit s) ∨
    (s.phase = .tok ∧ s.tok = .lit ∧ ∃ v, execLit v s = .next t) ∨
    (s.phase = .tok ∧ s.tok = .ref ∧ ∃ n d, execBrefs n d s = .next t) ∨
    (s.phase = .tok ∧ s.tok = .ref ∧ ∃ d e, execBrefl d e s = .next t) ∨
    (s.phase = .copy ∧ execCopy s = .next t) := by
  have fetched : ∀ c, nextMove s = fetchMove c s →
      ∃ bytes i rest, decodeStream c bytes = .ok (i, rest) ∧ exec i s = .next t := by
    intro c hc
    unfold engineStep at h
    rw [hc] at h
    unfold fetchMove at h
    cases hf : fetchItem c s with
    | error j => rw [hf] at h; cases h
    | ok bytes =>
      rw [hf] at h
      cases hd : decodeStream c bytes with
      | error e => simp [decode, hd, Except.map] at h
      | ok p => exact ⟨bytes, p.1, p.2, hd, by simpa [decode, hd, Except.map] using h⟩
  cases hp : s.phase with
  | idle => left; simp [engineStep, nextMove, hp] at h; exact ⟨rfl, h.symm⟩
  | hdr =>
    obtain ⟨bytes, i, rest, hd, hx⟩ := fetched .hdr (by simp [nextMove, hp])
    obtain ⟨m, n, rfl⟩ := decodeStream_hdr_ok hd
    exact .inr (.inl ⟨rfl, _, _, hx⟩)
  | win =>
    by_cases ho : s.outPtr = s.outLen
    · simp [engineStep, nextMove, hp, ho] at h
      exact .inr (.inr (.inl ⟨rfl, ho, h.symm⟩))
    · by_cases hm : s.mask = 0x00#8
      · obtain ⟨bytes, i, rest, hd, hx⟩ := fetched .win (by simp [nextMove, hp, ho, hm])
        obtain ⟨c, rfl⟩ := decodeStream_win_ok hd
        exact .inr (.inr (.inr (.inl ⟨rfl, ho, hm, _, hx⟩)))
      · simp [engineStep, nextMove, hp, ho, hm] at h
        exact .inr (.inr (.inr (.inr (.inl ⟨rfl, ho, hm, h.symm⟩))))
  | tok =>
    cases ht : s.tok with
    | lit =>
      obtain ⟨bytes, i, rest, hd, hx⟩ := fetched .lit (by simp [nextMove, hp, ht])
      obtain ⟨v, rfl⟩ := decodeStream_lit_ok hd
      exact .inr (.inr (.inr (.inr (.inr (.inl ⟨rfl, rfl, _, hx⟩)))))
    | ref =>
      obtain ⟨bytes, i, rest, hd, hx⟩ := fetched .ref (by simp [nextMove, hp, ht])
      rcases decodeStream_ref_ok hd with ⟨n, d, -, rfl⟩ | ⟨d, e, rfl⟩
      · exact .inr (.inr (.inr (.inr (.inr (.inr (.inl ⟨rfl, rfl, _, _, hx⟩))))))
      · exact .inr (.inr (.inr (.inr (.inr (.inr (.inr (.inl ⟨rfl, rfl, _, _, hx⟩)))))))
  | copy =>
    refine .inr (.inr (.inr (.inr (.inr (.inr (.inr (.inr ⟨rfl, ?_⟩)))))))
    simpa [engineStep, nextMove, hp, decode, exec] using h

end Sys2Proof.Machine
end

