-- ==== Sys2Proof/Laws/PerInstr.lean ====
section
/-!
SUPPORT. The statements made for every instruction, one lemma per constructor.
-/

namespace Sys2Proof.Laws.Length

/-- How many bytes of the stream an instruction takes: the tables of R71 and R78. The copy step and the host operations
take none. -/
def Statement (i : Instr) : Prop :=
  (encodeBytes i).length =
    match i with
    | .hdr _ _ => 16
    | .ctrl _ => 1
    | .lit _ => 1
    | .brefl _ _ => 3
    | .brefs _ _ => 2
    | .copy => 0
    | .regRead _ => 0
    | .regWriteCtrl _ => 0
    | .regWriteInLen _ => 0
    | .regWriteOther _ _ => 0
    | .inWrite _ _ => 0
    | .outRead _ => 0

theorem hdr (m : Magic) (n : Word) : Statement (.hdr m n) := rfl

theorem ctrl (c : Byte) : Statement (.ctrl c) := rfl

theorem lit (v : Byte) : Statement (.lit v) := rfl

theorem brefl (d : BitVec 12) (e : Byte) : Statement (.brefl d e) := rfl

theorem brefs (n : BitVec 4) (d : BitVec 12) : Statement (.brefs n d) := rfl

theorem copy : Statement .copy := rfl

theorem regRead (off : BitVec 8) : Statement (.regRead off) := rfl

theorem regWriteCtrl (v : Word) : Statement (.regWriteCtrl v) := rfl

theorem regWriteInLen (v : Word) : Statement (.regWriteInLen v) := rfl

theorem regWriteOther (off : BitVec 8) (v : Word) : Statement (.regWriteOther off v) := rfl

theorem inWrite (i : Word) (b : Byte) : Statement (.inWrite i b) := rfl

theorem outRead (i : Word) : Statement (.outRead i) := rfl

end Sys2Proof.Laws.Length
end

