-- ==== Sys2Proof/Tests/Slice0.lean ====
section
/-!
SUPPORT. The tests. Expected results are those of the spec: the formats of 30_encoding.md, the worked examples of the rules
and the vectors of 95_test_vectors.md, named at each test. The second half holds a witness for every statement that has
hypotheses: a concrete state and operands that meet all of them.
-/

namespace Sys2Proof.Tests

open Sys2Proof.Machine

/-! ### Small states -/

/-- The next state of an outcome. -/
def next? : Host.Outcome State Fault Refusal → Option State
  | .next t => some t
  | .fault _ => none
  | .refused _ => none

/-- The fault of an outcome. -/
def fault? : Host.Outcome State Fault Refusal → Option Fault
  | .next _ => none
  | .fault r => some r
  | .refused _ => none

/-- The refusal of an outcome. -/
def refusal? : Host.Outcome State Fault Refusal → Option Refusal
  | .next _ => none
  | .fault _ => none
  | .refused r => some r

/-- `HDR(n)` of 95_test_vectors.md, for a length below 256. -/
def header (n : Byte) : List Byte :=
  [0x59#8, 0x61#8, 0x7A#8, 0x30#8, 0#8, 0#8, 0#8, n, 0#8, 0#8, 0#8, 0#8, 0#8, 0#8, 0#8, 0#8]

/-- The stream of vector X1 (L = 21). -/
def x1 : List Byte := header 4#8 ++ [0xF0#8, 0x01#8, 0x02#8, 0x03#8, 0x04#8]

/-- The stream of vector X6 (L = 20): one literal, then a reference of length 5 of which 3 bytes fit. -/
def x6 : List Byte := header 4#8 ++ [0x80#8, 0x41#8, 0x30#8, 0x00#8]

/-- The idle engine with a stream loaded, its length set to `len`. -/
def loaded (bytes : List Byte) (len : Word) : State :=
  { State.reset with inMem := Memory.writeAll [] 0 bytes, inLen := len }

/-- The engine just after START. -/
def started (bytes : List Byte) (len : Word) : State := startDecode (loaded bytes len)

/-- A decode of a stream that has written one byte, 0x41. -/
def mid (bytes : List Byte) (p : Phase) (k : Tok) (c m : Byte) (ip len n : Word) (rem : BitVec 9) : State :=
  { State.reset with
    phase := p, status := 0x1#32, inLen := len, outLen := n, inPtr := ip, outPtr := 1#32, ctrl := c, mask := m, tok := k
    copySrc := 0#32, copyRem := rem, hist := [(0, 0x41#8)], inMem := Memory.writeAll [] 0 bytes, outMem := [(0, 0x41#8)] }

/-- The end of X1: DONE, with `01 02 03 04` written. -/
def x1Done : State :=
  { loaded x1 21#32 with
    status := 0x2#32, outLen := 4#32, inPtr := 21#32, outPtr := 4#32, ctrl := 0xF0#8, mask := 0x08#8
    hist := [(0, 1#8), (1, 2#8), (2, 3#8), (3, 4#8)], outMem := [(0, 1#8), (1, 2#8), (2, 3#8), (3, 4#8)] }

/-! ### Well-formedness -/

theorem test_wf_refuses_brefs_zero : (Instr.brefs 0#4 5#12).wellFormed = false := by decide

theorem test_wf_refuses_misaligned_read : (Instr.regRead 0x06#8).wellFormed = false := by decide

theorem test_wf_refuses_misaligned_write : (Instr.regWriteOther 0x1A#8 0#32).wellFormed = false := by decide

theorem test_wf_refuses_other_ctrl : (Instr.regWriteOther 0x00#8 0#32).wellFormed = false := by decide

theorem test_wf_refuses_other_inLen : (Instr.regWriteOther 0x08#8 0#32).wellFormed = false := by decide

theorem test_wf_accepts_ends : (Instr.brefs 15#4 4095#12).wellFormed = true ∧ (Instr.regRead 0xFC#8).wellFormed = true ∧
    (Instr.regWriteOther 0xFC#8 0#32).wellFormed = true := by decide

/-! ### Decoding, by the formats of R71 to R75 and the operations of R130 to R136 -/

/-- R71, vector H11: the length is `01 02 03 04`. -/
theorem test_decode_hdr :
    decode (.stream .hdr [0x59#8, 0x61#8, 0x7A#8, 0x30#8, 1#8, 2#8, 3#8, 4#8, 0#8, 0#8, 0#8, 0x80#8, 0#8, 0#8, 0#8, 0#8]) =
      .ok (.hdr ⟨0x59#8, 0x61#8, 0x7A#8, 0x30#8⟩ 16909060#32) := by rfl

theorem test_decode_hdr_short : decode (.stream .hdr [0x59#8, 0x61#8, 0x7A#8]) = .error .tooShort := by rfl

theorem test_decode_ctrl : decode (.stream .win [0xF0#8, 1#8]) = .ok (.ctrl 0xF0#8) := by rfl

theorem test_decode_lit : decode (.stream .lit [0x7A#8]) = .ok (.lit 0x7A#8) := by rfl

/-- R111: `1F FF` is `d = 4095`, `n = 1`. -/
theorem test_decode_brefs : decode (.stream .ref [0x1F#8, 0xFF#8]) = .ok (.brefs 1#4 4095#12) := by rfl

/-- R74: `b1` carries the high bits of the distance. -/
theorem test_decode_brefl : decode (.stream .ref [0x0A#8, 0xBC#8, 0xFF#8]) = .ok (.brefl 0xABC#12 0xFF#8) := by rfl

theorem test_decode_brefl_short : decode (.stream .ref [0x0A#8, 0xBC#8]) = .error .tooShort := by rfl

theorem test_decode_copy : decode .internal = .ok .copy := by rfl

theorem test_decode_regRead : decode (.host (.regRead .w32 0xFC#32)) = .ok (.regRead 0xFC#8) := by rfl

theorem test_decode_regWriteCtrl : decode (.host (.regWrite .w32 0x00#32 1#32)) = .ok (.regWriteCtrl 1#32) := by rfl

theorem test_decode_regWriteInLen : decode (.host (.regWrite .w32 0x08#32 21#32)) = .ok (.regWriteInLen 21#32) := by rfl

theorem test_decode_regWriteOther : decode (.host (.regWrite .w32 0x04#32 9#32)) = .ok (.regWriteOther 0x04#8 9#32) := by rfl

theorem test_decode_inWrite : decode (.host (.inWrite 16#32 0xF0#8)) = .ok (.inWrite 16#32 0xF0#8) := by rfl

theorem test_decode_outRead : decode (.host (.outRead 3#32)) = .ok (.outRead 3#32) := by rfl

/-- Vector HO9: a 16-bit read of 0x04, and a 32-bit read of 0x06; and R55's reads past 0xFC. -/
theorem test_decode_refuses_registers : decode (.host (.regRead .w16 0x04#32)) = .error .registerWidth ∧
    decode (.host (.regRead .w32 0x06#32)) = .error .registerMisaligned ∧
    decode (.host (.regRead .w32 0x100#32)) = .error .registerPastWindow := ⟨rfl, rfl, rfl⟩

theorem test_decode_refuses_other : decode (.host .other) = .error .noSuchOperation := by rfl

/-! ### The table's words -/

theorem test_table_words : decodeTableWord 8 0x00 = some (.regWriteCtrl 0#32) ∧
    decodeTableWord 8 0x08 = some (.regWriteInLen 0#32) ∧ decodeTableWord 8 0x05 = some (.brefl 0x500#12 0#8) ∧
    decodeTableWord 8 0x14 = some (.regRead 0x14#8) ∧ decodeTableWord 8 0x15 = some (.brefs 1#4 0x500#12) ∧
    decodeTableWord 24 0x050201 = some (.brefl 0x102#12 5#8) ∧
    decodeTableWord 40 0x0000000104 = some (.regWriteOther 0x04#8 1#32) ∧
    decodeTableWord 32 0x307A6159 = some (.hdr ⟨0x59#8, 0x61#8, 0x7A#8, 0x30#8⟩ 0#32) := by decide

theorem test_withFetchWord_runs_brefs : step (State.reset.withFetchWord 8 0x15) =
    exec (.brefs 1#4 0x500#12) (State.reset.withFetchWord 8 0x15).popTurn := by rfl

theorem test_withFetchWord_runs_start :
    (next? (step (State.reset.withFetchWord 8 0x00))).map (·.phase) = some .idle := by decide

theorem test_withFetchWord_runs_hdr : (next? (step (State.reset.withFetchWord 128
    0x04000000307A6159))).map (fun t => (t.phase, t.inPtr)) = some (.win, 16#32) := by decide

/-! ### The worked examples of the rules -/

/-- R90: the §8 header. -/
theorem test_hdr_x1 : (next? (step (started x1 21#32))).map (fun t => (t.outLen, t.inPtr, t.outPtr, t.mask, t.phase)) =
    some (4#32, 16#32, 0#32, 0#8, .win) := by decide

/-- Vector H5: a wrong magic is found before the short header. -/
theorem test_hdr_h5 : (next? (step (started [0x59#8, 0x61#8, 0x7A#8, 0x31#8] 4#32))).map (fun t => (t.phase, t.status)) =
    some (.idle, 0x14#32) := by decide

/-- R101, R102: `IN[16] = F0` gives `ctrl = F0`, the first token is a literal, the mask moves on to 0x40. -/
theorem test_ctrl_x1 :
    (next? (exec (.ctrl 0xF0#8) (mid x1 .win .lit 0#8 0#8 16#32 21#32 4#32 0#9))).map
      (fun t => (t.ctrl, t.inPtr, t.mask, t.tok, t.phase)) = some (0xF0#8, 17#32, 0x40#8, .lit, .tok) := by decide

/-- Vector W7: `ctrl = 00` gives a reference first. -/
theorem test_ctrl_w7 :
    (next? (exec (.ctrl 0x00#8) (mid x1 .win .lit 0#8 0#8 16#32 21#32 4#32 0#9))).map (·.tok) = some .ref := by decide

/-- R110: the byte is written at the output cursor, to OUT and HIST. -/
theorem test_lit : (next? (exec (.lit 0xFF#8) (mid x1 .tok .lit 0xF0#8 0x40#8 17#32 21#32 4#32 0#9))).map
    (fun t => (outByte t 1, histRead t 1, t.inPtr, t.outPtr, t.phase)) =
    some (some 0xFF#8, 0xFF#8, 18#32, 2#32, .win) := by decide

/-- Vector L2: no byte left. -/
theorem test_lit_truncated : (next? (exec (.lit 0xFF#8) (mid x1 .tok .lit 0xF0#8 0x40#8 17#32 17#32 4#32 0#9))).map
    (fun t => (outByte t 1, t.inPtr, t.outPtr, t.status)) = some (none, 17#32, 1#32, 0x24#32) := by decide

/-- Vector X6: `30 00` at `out_ptr = 1` is distance 0 and length 5. -/
theorem test_brefs_x6 : (next? (step (mid x6 .tok .ref 0x80#8 0x20#8 18#32 20#32 4#32 0#9))).map
    (fun t => (t.copySrc, t.copyRem, t.inPtr, t.phase)) = some (0#32, 5#9, 20#32, .copy) := by decide

/-- R111: `d = out_ptr` is an error. -/
theorem test_brefs_invalid : (next? (exec (.brefs 1#4 1#12) (mid x6 .tok .ref 0x80#8 0x20#8 18#32 20#32 4#32 0#9))).map
    (fun t => (t.status, t.inPtr, t.outPtr)) = some (0x34#32, 20#32, 1#32) := by decide

/-- R112, vector BL1: `00 00 00` at `out_ptr = 1` is length 18 from index 0. -/
theorem test_brefl_bl1 : (next? (step (mid (header 19#8 ++ [0x80#8, 0x5A#8, 0#8, 0#8, 0#8]) .tok .ref 0x80#8 0x20#8 18#32
    21#32 19#32 0#9))).map (fun t => (t.copySrc, t.copyRem, t.inPtr, t.phase)) = some (0#32, 18#9, 21#32, .copy) := by decide

/-- Vector BL5: cut short and out of range is TruncatedInput. -/
theorem test_brefl_truncated : (next? (exec (.brefl 5#12 0#8) (mid x6 .tok .ref 0x80#8 0x20#8 18#32 20#32 4#32 0#9))).map
    (fun t => (t.status, t.inPtr)) = some (0x24#32, 20#32) := by decide

/-- R120: one byte of an overlapping copy, distance 0. -/
theorem test_copy_byte : (next? (step (mid x6 .copy .ref 0x80#8 0x20#8 20#32 20#32 4#32 5#9))).map
    (fun t => (outByte t 1, histRead t 1, t.copySrc, t.copyRem, t.outPtr, t.phase)) =
    some (some 0x41#8, 0x41#8, 1#32, 4#9, 2#32, .copy) := by decide

/-- R121: at `N` the rest of the length is discarded. -/
theorem test_copy_clamp : (next? (step (mid x6 .copy .ref 0x80#8 0x20#8 20#32 20#32 1#32 5#9))).map
    (fun t => (t.outPtr, t.copyRem, t.phase)) = some (1#32, 0#9, .win) := by decide

/-- R130: the reads after X1. -/
theorem test_regRead_x1 : (next? (exec (.regRead 0x10#8) x1Done)).map (·.reply) = some (.word 21#32) ∧
    (next? (exec (.regRead 0x04#8) x1Done)).map (·.reply) = some (.word 2#32) ∧
    (next? (exec (.regRead 0x00#8) x1Done)).map (·.reply) = some (.word 0#32) := by decide

/-- R131: START from a stopped engine. -/
theorem test_start : (next? (exec (.regWriteCtrl 1#32) { x1Done with status := 0x34#32 })).map
    (fun t => (t.status, t.phase, t.outLen, outByte t 0, t.inLen)) = some (1#32, .hdr, 0#32, none, 21#32) := by decide

/-- Vector HO8: bit 0 is 0. -/
theorem test_no_start : (next? (exec (.regWriteCtrl 0xFFFFFFFE#32) x1Done)).map (·.phase) = some .idle := by decide

/-- R132; vector HO3: ignored while BUSY. -/
theorem test_inLen : (next? (exec (.regWriteInLen 21#32) State.reset)).map (·.inLen) = some 21#32 ∧
    (next? (exec (.regWriteInLen 5#32) (started x1 21#32))).map (·.inLen) = some 21#32 := by decide

/-- Vector HO7: STATUS is read-only. -/
theorem test_write_status : (next? (exec (.regWriteOther 0x04#8 0xFFFFFFFF#32) x1Done)).map (·.status) = some 2#32 := by decide

/-- R134. -/
theorem test_inWrite : (next? (exec (.inWrite 16#32 0xF0#8) State.reset)).map (inByte · 16) = some (some 0xF0#8) := by decide

/-- R134: no move while BUSY. -/
theorem test_inWrite_busy : refusal? (exec (.inWrite 16#32 0xF0#8) (started x1 21#32)) = some .inputWriteWhileBusy := by decide

/-- Vector HO6. -/
theorem test_outRead_x1 : (next? (exec (.outRead 3#32) x1Done)).map (·.reply) = some (.byte 4#8) ∧
    fault? (exec (.outRead 4#32) x1Done) = some (.outputNotValid 4) := by decide

/-- R100: the stop of X1. -/
theorem test_finish : (next? (step { x1Done with phase := .win, status := 1#32 })).map
    (fun t => (t.status, t.phase, t.mask)) = some (2#32, .idle, 0x08#8) := by decide

/-- Vector HO10: the control byte was never written. -/
theorem test_unwritten : fault? (step (mid (header 4#8) .win .lit 0#8 0#8 16#32 21#32 4#32 0#9)) =
    some (.unwrittenInput 16) := by decide

/-- Vector HO11: a reset during a decode. -/
theorem test_reset : (next? (step { mid x6 .copy .ref 0x80#8 0x20#8 20#32 20#32 4#32 5#9 with turns := [.reset] })).map
    (fun t => (t.status, t.phase, t.outPtr, outByte t 0)) = some (0#32, .idle, 0#32, none) := by decide

/-! ### The states of the witnesses keep the invariant -/

theorem started_inv {bytes : List Byte} {len : Word} (hs : ∀ c ∈ Memory.writeAll [] 0 bytes, c.1 < 4294967296) :
    (started bytes len).Inv where
  in_wf := Memory.writeAll_wf (m := []) (by decide) 0 bytes
  out_wf := List.Pairwise.nil
  hist_wf := List.Pairwise.nil
  in_size := hs
  hist_size := fun _ h => by cases h
  out_written := by simp [started, startDecode, outByte]
  status_legal := rfl
  done_full := by simp [started, startDecode, statusDone, statusBusy]
  mask_onehot := by simp [started, startDecode]
  rem_range := Nat.zero_le _
  out_range := Nat.le_refl _
  in_range := fun _ => Nat.zero_le _
  hdr_fresh := fun _ => ⟨rfl, rfl, rfl, rfl⟩
  payload := fun h => by simp [State.inPayload, started, startDecode] at h
  tok_room := fun h => by simp [started, startDecode] at h
  copy_source := fun h => by simp [started, startDecode] at h
  hist_agrees := fun i h => by simp [started, startDecode] at h

theorem mid_inv {bytes : List Byte} {p : Phase} {k : Tok} {c m : Byte} {ip len n : Word} {rem : BitVec 9}
    (hs : ∀ c ∈ Memory.writeAll [] 0 bytes, c.1 < 4294967296) (hp : p ≠ .idle ∧ p ≠ .hdr)
    (hm : m ∈ [0x00#8, 0x80#8, 0x40#8, 0x20#8, 0x10#8, 0x08#8, 0x04#8, 0x02#8, 0x01#8]) (hr : rem.toNat ≤ 273)
    (hi : 16 ≤ ip.toNat ∧ ip.toNat ≤ len.toNat) (hn : if p = .tok then 1 < n.toNat else 1 ≤ n.toNat) :
    (mid bytes p k c m ip len n rem).Inv where
  in_wf := Memory.writeAll_wf (m := []) (by decide) 0 bytes
  out_wf := by simp [mid, Memory.wf]
  hist_wf := by simp [mid, Memory.wf]
  in_size := hs
  hist_size := by simp [mid, histSize]
  out_written := fun i => by simp [mid, outByte, Memory.read]; omega
  status_legal := by simp [State.statusLegal, mid, hp.1]
  done_full := by simp [mid, statusDone]
  mask_onehot := hm
  rem_range := hr
  out_range := by simp only [mid]; split at hn <;> simp <;> omega
  in_range := fun _ => hi.2
  hdr_fresh := fun h => absurd h hp.2
  payload := fun _ => ⟨by have := n.isLt; simp [mid, State.reset, Config.default]; omega, hi.1⟩
  tok_room := fun h => by rw [if_pos (show p = .tok from h)] at hn; exact hn
  copy_source := fun _ => by simp [mid, histSize]
  hist_agrees := fun i h _ => by
    obtain rfl : i = 0 := by simpa [mid] using h
    rfl

theorem x1Done_inv : x1Done.Inv where
  in_wf := by decide
  out_wf := by decide
  hist_wf := by decide
  in_size := by decide
  hist_size := by decide
  out_written := fun i => by simp [x1Done, outByte, Memory.read]; split_ifs <;> simp <;> omega
  status_legal := by simp [State.statusLegal, x1Done, loaded, State.reset]
  done_full := fun _ => rfl
  mask_onehot := by decide
  rem_range := by decide
  out_range := by decide
  in_range := fun h => absurd rfl h
  hdr_fresh := fun h => by simp [x1Done, loaded, State.reset] at h
  payload := fun h => by simp [State.inPayload, x1Done, loaded, State.reset] at h
  tok_room := fun h => by simp [x1Done, loaded, State.reset] at h
  copy_source := fun h => by simp [x1Done, loaded, State.reset] at h
  hist_agrees := fun i h _ => by
    have h : i < 4 := h
    interval_cases i <;> rfl

/-! ### Witnesses -/

/-- `State.holds` by looking at each byte. -/
theorem holds_of {s : State} {p : Nat} {bytes : List Byte}
    (h : ∀ k : Fin bytes.length, p + k.1 < s.inLen.toNat ∧ inByte s (p + k.1) = some bytes[k]) : s.holds p bytes := by
  intro k b hk
  obtain ⟨hl, hb⟩ := List.getElem?_eq_some_iff.mp hk
  exact hb ▸ h ⟨k, hl⟩

def stHdr : State := started x1 21#32
def stFetch : State := mid x1 .win .lit 0#8 0#8 16#32 21#32 4#32 0#9
def stWin : State := mid x6 .win .lit 0x80#8 0x40#8 18#32 20#32 4#32 0#9
def stLit : State := mid x1 .tok .lit 0xF0#8 0x40#8 17#32 21#32 4#32 0#9
def stRef : State := mid x6 .tok .ref 0x80#8 0x20#8 18#32 20#32 4#32 0#9
/-- A long reference, `00 00 00`. -/
def stRefl : State :=
  mid (header 19#8 ++ [0x80#8, 0x41#8, 0#8, 0#8, 0#8]) .tok .ref 0x80#8 0x20#8 18#32 21#32 19#32 0#9
/-- A short reference one byte too far back, `10 01`. -/
def stRefBad : State := mid (header 4#8 ++ [0x80#8, 0x41#8, 0x10#8, 0x01#8]) .tok .ref 0x80#8 0x20#8 18#32 20#32 4#32 0#9
def stCopy : State := mid x6 .copy .ref 0x80#8 0x20#8 20#32 20#32 4#32 5#9

theorem stHdr_inv : stHdr.Inv := started_inv (by decide)
theorem stFetch_inv : stFetch.Inv := mid_inv (by decide) (by decide) (by decide) (by decide) (by decide) (by decide)
theorem stWin_inv : stWin.Inv := mid_inv (by decide) (by decide) (by decide) (by decide) (by decide) (by decide)
theorem stLit_inv : stLit.Inv := mid_inv (by decide) (by decide) (by decide) (by decide) (by decide) (by decide)
theorem stRef_inv : stRef.Inv := mid_inv (by decide) (by decide) (by decide) (by decide) (by decide) (by decide)
theorem stCopy_inv : stCopy.Inv := mid_inv (by decide) (by decide) (by decide) (by decide) (by decide) (by decide)

theorem witness_HardwareResetSetsEveryResetValue : { stCopy with turns := [.reset] }.turns = .reset :: [] := rfl

theorem witness_EngineStepRunsTheDecodedItem_hdr : ∃ i : Instr, stHdr.engineTurn = true ∧ i.wellFormed = true ∧
    encode i = .stream .hdr (header 4#8) ∧ stHdr.expects .hdr ∧ stHdr.holds 0 ((header 4#8).take 8) ∧
    16 ≤ stHdr.inLen.toNat :=
  ⟨.hdr ⟨0x59#8, 0x61#8, 0x7A#8, 0x30#8⟩ 4#32, rfl, rfl, rfl, rfl, holds_of (by decide), by decide⟩

theorem witness_EngineStepRunsTheDecodedItem_win : stFetch.engineTurn = true ∧ (Instr.ctrl 0xF0#8).wellFormed = true ∧
    encode (.ctrl 0xF0#8) = .stream .win [0xF0#8] ∧ stFetch.expects .win ∧ stFetch.holds stFetch.inPtr.toNat [0xF0#8] :=
  ⟨rfl, rfl, rfl, ⟨rfl, rfl, by decide⟩, holds_of (by decide)⟩

theorem witness_EngineStepRunsTheDecodedItem_lit : stLit.engineTurn = true ∧ (Instr.lit 1#8).wellFormed = true ∧
    encode (.lit 1#8) = .stream .lit [1#8] ∧ stLit.expects .lit ∧ stLit.holds stLit.inPtr.toNat [1#8] :=
  ⟨rfl, rfl, rfl, ⟨rfl, rfl⟩, holds_of (by decide)⟩

theorem witness_EngineStepRunsTheDecodedItem_ref : stRef.engineTurn = true ∧ (Instr.brefs 3#4 0#12).wellFormed = true ∧
    encode (.brefs 3#4 0#12) = .stream .ref [0x30#8, 0#8] ∧ stRef.expects .ref ∧
    stRef.holds stRef.inPtr.toNat [0x30#8, 0#8] := ⟨rfl, rfl, rfl, ⟨rfl, rfl⟩, holds_of (by decide)⟩

theorem witness_EngineStepCopiesOrWaits : stCopy.engineTurn = true ∧ stCopy.phase = .copy ∧
    State.reset.engineTurn = true ∧ State.reset.phase = .idle := ⟨rfl, rfl, rfl, rfl⟩

theorem witness_HostStepRunsTheDecodedAccess : { x1Done with turns := [.host (.outRead 3#32)] }.turns =
      .host (.outRead 3#32) :: [] ∧ decode (.host (.outRead 3#32)) = .ok (.outRead 3#32) ∧
    decode (.host .other) = .error .noSuchOperation := ⟨rfl, rfl, rfl⟩

theorem witness_ItemsOutsideTheirContextAreRefused : (Instr.brefs 0#4 0#12).wellFormed = false ∧
    (Instr.lit 0#8).wellFormed = true ∧ encode (.lit 0#8) = .stream .lit [0#8] ∧ ¬ State.reset.expects .lit ∧
    State.reset.phase ≠ .copy := ⟨rfl, rfl, rfl, by simp [State.expects, State.reset], by decide⟩

/-- At the largest length and the smallest input. -/
theorem witness_HeaderIsAccepted : (started (header 0#8) 16#32).phase = .hdr ∧
    16 ≤ (started (header 0#8) 16#32).inLen.toNat ∧ (0xFFFFFFFF#32).toNat ≤ (started (header 0#8) 16#32).cfg.outCap :=
  ⟨rfl, by decide, by decide⟩

/-- Vectors H2, H5, H4 and H9, and the header of X1; each at the edge of its range of `L`. -/
theorem witness_HeaderStepIsTheParser :
    ((started x1 3#32).phase = .hdr ∧ (started x1 3#32).engineTurn = true ∧ (started x1 3#32).inLen.toNat < 4) ∧
    ((started [0x59#8, 0x61#8, 0x7A#8, 0x31#8] 4#32).holds 0 [0x59#8, 0x61#8, 0x7A#8, 0x31#8] ∧
      (0x31#8 : Byte) ≠ (started [0x59#8, 0x61#8, 0x7A#8, 0x31#8] 4#32).cfg.magic.b3) ∧
    ((started x1 15#32).holds 0 [0x59#8, 0x61#8, 0x7A#8, 0x30#8] ∧ (started x1 15#32).inLen.toNat < 16) ∧
    ({ started x1 16#32 with cfg := { Config.default with outCap := 3 } }.holds 0 ((header 4#8).take 8) ∧
      3 < (be32 0#8 0#8 0#8 4#8).toNat ∧ 16 ≤ (started x1 16#32).inLen.toNat) ∧
    ({ started x1 16#32 with cfg := { Config.default with outCap := 4 } }.holds 0 ((header 4#8).take 8) ∧
      (be32 0#8 0#8 0#8 4#8).toNat ≤ 4) ∧ stHdr.Inv :=
  ⟨⟨rfl, rfl, by decide⟩, ⟨holds_of (by decide), by decide⟩, ⟨holds_of (by decide), by decide⟩,
    ⟨holds_of (by decide), by decide, by decide⟩, ⟨holds_of (by decide), by decide⟩, stHdr_inv⟩

theorem witness_HeaderLengthIsBigEndian : stHdr.engineTurn = true ∧ stHdr.phase = .hdr ∧ 16 ≤ stHdr.inLen.toNat ∧
    stHdr.holds 0 [stHdr.cfg.magic.b0, stHdr.cfg.magic.b1, stHdr.cfg.magic.b2, stHdr.cfg.magic.b3, 0#8, 0#8, 0#8, 4#8] ∧
    (be32 0#8 0#8 0#8 4#8).toNat ≤ stHdr.cfg.outCap := ⟨rfl, rfl, by decide, holds_of (by decide), by decide⟩

theorem witness_WrongMagicFailsWhateverFollows : ∃ (s : State) (m : Magic), s.Inv ∧ s.engineTurn = true ∧ s.phase = .hdr ∧
    s.holds 0 [m.b0, m.b1, m.b2, m.b3] ∧ m ≠ s.cfg.magic :=
  ⟨started [0x59#8, 0x61#8, 0x7A#8, 0x31#8] 4#32, ⟨0x59#8, 0x61#8, 0x7A#8, 0x31#8⟩, started_inv (by decide), rfl, rfl,
    holds_of (by decide), by decide⟩

/-- The reserved bytes written and not written; a step that answers a next state, and one that faults at IN[7]. -/
theorem witness_ReservedHeaderBytesAreNotRead : (started x1 21#32).phase = .hdr ∧
    (started (x1.take 8) 21#32).cfg = (started x1 21#32).cfg ∧ (started (x1.take 8) 21#32).inLen = (started x1 21#32).inLen ∧
    (∀ i : Fin 8, inByte (started (x1.take 8) 21#32) i = inByte (started x1 21#32) i) ∧
    inByte (started (x1.take 8) 21#32) 8 ≠ inByte (started x1 21#32) 8 ∧ (started x1 21#32).engineTurn = true ∧
    (∃ t, step (started x1 21#32) = .next t) ∧ ∃ r, step (started (x1.take 7) 21#32) = .fault r :=
  ⟨rfl, rfl, rfl, by decide, by decide, rfl, ⟨_, rfl⟩, ⟨_, rfl⟩⟩

theorem witness_CapacityExceededRecordsTheLength_first : ∃ (s : State) (n : Word), s.Inv ∧ s.phase = .hdr ∧
    16 ≤ s.inLen.toNat ∧ s.cfg.outCap < n.toNat :=
  ⟨{ stHdr with cfg := { Config.default with outCap := 1000 } }, 0xFFFFFFFF#32,
    { stHdr_inv with payload := fun h => by simp [State.inPayload, stHdr, started, startDecode] at h }, rfl, by decide,
    by decide⟩

theorem witness_CapacityExceededRecordsTheLength_second : 4294967295 ≤ x1Done.cfg.outCap ∧ x1Done.status ≠ 0x44#32 ∧
    exec (.regWriteOther 0x04#8 0#32) x1Done = .next x1Done := ⟨by decide, by decide, rfl⟩

theorem witness_EmptyOutputSucceedsAtOnce : ∃ s : State, s.turns = [] ∧ s.phase = .hdr ∧ 16 ≤ s.inLen.toNat ∧
    s.holds 0 [s.cfg.magic.b0, s.cfg.magic.b1, s.cfg.magic.b2, s.cfg.magic.b3, 0#8, 0#8, 0#8, 0#8] :=
  ⟨started (header 0#8) 16#32, rfl, rfl, by decide, holds_of (by decide)⟩

theorem witness_ControlByteCompletes : stFetch.phase = .win ∧ stFetch.mask = 0#8 ∧ stFetch.outPtr ≠ stFetch.outLen ∧
    stFetch.inPtr.toNat < stFetch.inLen.toNat := ⟨rfl, rfl, by decide, by decide⟩

theorem witness_WindowFinishesAtTheDecodedLength : ∃ s : State, s.engineTurn = true ∧ s.phase = .win ∧ s.outPtr = s.outLen :=
  ⟨{ x1Done with phase := .win, status := 1#32 }, rfl, rfl, rfl⟩

/-- No fetch; a fetch with no byte left (vector W2's case); a fetch. -/
theorem witness_WindowFetchesTestsThenShifts :
    (stWin.engineTurn = true ∧ stWin.phase = .win ∧ stWin.outPtr ≠ stWin.outLen ∧ stWin.mask ≠ 0#8) ∧
    (∃ s : State, s.engineTurn = true ∧ s.phase = .win ∧ s.outPtr ≠ s.outLen ∧ s.mask = 0#8 ∧
      s.inLen.toNat ≤ s.inPtr.toNat) ∧
    (stFetch.engineTurn = true ∧ stFetch.phase = .win ∧ stFetch.outPtr ≠ stFetch.outLen ∧ stFetch.mask = 0#8 ∧
      stFetch.inPtr.toNat < stFetch.inLen.toNat ∧ inByte stFetch stFetch.inPtr.toNat = some 0xF0#8) :=
  ⟨⟨rfl, rfl, by decide, by decide⟩,
    ⟨mid x1 .win .lit 0#8 0#8 21#32 21#32 4#32 0#9, rfl, rfl, by decide, rfl, by decide⟩,
    ⟨rfl, rfl, by decide, rfl, by decide, by decide⟩⟩

/-- The first and the last token of a group. -/
theorem witness_GroupBitsAreTakenMsbFirst : ∀ j : Fin 8, j = 0 ∨ j = 7 → ∃ s : State, s.engineTurn = true ∧ s.phase = .win ∧
    s.outPtr ≠ s.outLen ∧ s.mask = 0x80#8 >>> j.1 :=
  fun j _ => ⟨mid x1 .win .lit 0xF0#8 (0x80#8 >>> j.1) 18#32 21#32 4#32 0#9, rfl, rfl, by simp [mid], rfl⟩

theorem witness_LiteralIsCopiedUnchanged : (stLit.phase = .tok ∧ stLit.tok = .lit) ∧
    (stLit.inPtr.toNat < stLit.inLen.toNat ∧ stLit.outPtr.toNat < stLit.outLen.toNat ∧
      stLit.outLen.toNat ≤ stLit.cfg.outCap ∧ stLit.engineTurn = true ∧ inByte stLit stLit.inPtr.toNat = some 1#8) ∧
    ∃ s : State, s.phase = .tok ∧ s.tok = .lit ∧ s.inLen.toNat ≤ s.inPtr.toNat :=
  ⟨⟨rfl, rfl⟩, ⟨by decide, by decide, by decide, rfl, by decide⟩, { stLit with inLen := 17#32 }, rfl, rfl, by decide⟩

theorem witness_ShortReferenceSetsUpTheCopy : (15#4 : BitVec 4) ≠ 0#4 ∧ stRef.phase = .tok ∧ stRef.tok = .ref ∧
    stRef.inPtr.toNat + 2 ≤ stRef.inLen.toNat ∧ (0#12).toNat + 1 ≤ stRef.outPtr.toNat :=
  ⟨by decide, rfl, rfl, by decide, by decide⟩

theorem witness_LongReferenceSetsUpTheCopy : stRefl.phase = .tok ∧ stRefl.tok = .ref ∧
    stRefl.inPtr.toNat + 3 ≤ stRefl.inLen.toNat ∧ (0#12).toNat + 1 ≤ stRefl.outPtr.toNat :=
  ⟨rfl, rfl, by decide, by decide⟩

theorem witness_ReferenceBeforeTheOutputFails : stRefl.phase = .tok ∧ stRefl.tok = .ref ∧
    stRefl.outPtr.toNat < (1#12).toNat + 1 ∧ stRefl.inPtr.toNat + 2 ≤ stRefl.inLen.toNat ∧
    stRefl.inPtr.toNat + 3 ≤ stRefl.inLen.toNat := ⟨rfl, rfl, by decide, by decide, by decide⟩

/-- A short token, a long one, a short one out of range, and each of the three places where a token can be cut. -/
theorem witness_BackReferenceStepFollowsTheBytes :
    (stRef.engineTurn = true ∧ stRef.expects .ref ∧ stRef.holds stRef.inPtr.toNat [0x30#8, 0#8] ∧
      0 + 1 ≤ stRef.outPtr.toNat) ∧
    (stRefl.expects .ref ∧ stRefl.holds stRefl.inPtr.toNat [0#8, 0#8, 0#8] ∧ 0 + 1 ≤ stRefl.outPtr.toNat) ∧
    (stRefBad.expects .ref ∧ stRefBad.holds stRefBad.inPtr.toNat [0x10#8, 1#8] ∧ stRefBad.outPtr.toNat < 1 + 1) ∧
    ({ stRefl with inLen := 18#32 }.holds 18 [] ∧ 18 + 0 = (18#32).toNat) ∧
    ({ stRefl with inLen := 19#32 }.holds 18 [0#8] ∧ 18 + 1 = (19#32).toNat) ∧
    ({ stRefl with inLen := 20#32 }.holds 18 [0#8, 0#8] ∧ 18 + 2 = (20#32).toNat) :=
  ⟨⟨rfl, ⟨rfl, rfl⟩, holds_of (by decide), by decide⟩, ⟨⟨rfl, rfl⟩, holds_of (by decide), by decide⟩,
    ⟨⟨rfl, rfl⟩, holds_of (by decide), by decide⟩, ⟨holds_of (by decide), rfl⟩, ⟨holds_of (by decide), rfl⟩,
    ⟨holds_of (by decide), rfl⟩⟩

/-- HDR-a, HDR-c, CTRL, LIT, B1, B2, B3. -/
theorem witness_EveryTruncationSiteStops :
    ((started x1 3#32).Inv ∧ (started x1 3#32).engineTurn = true ∧ (started x1 3#32).phase = .hdr ∧
      (started x1 3#32).inLen.toNat < 4) ∧
    ((started x1 15#32).Inv ∧ (started x1 15#32).inLen.toNat < 16 ∧
      (started x1 15#32).holds 0 [0x59#8, 0x61#8, 0x7A#8, 0x30#8]) ∧
    (∃ s : State, s.Inv ∧ s.engineTurn = true ∧ s.expects .win ∧ s.inPtr = s.inLen) ∧
    (∃ s : State, s.Inv ∧ s.expects .lit ∧ s.inPtr = s.inLen) ∧
    (∃ s : State, s.Inv ∧ s.expects .ref ∧ s.inPtr = s.inLen) ∧
    (∃ s : State, s.Inv ∧ s.expects .ref ∧ s.inPtr.toNat + 1 = s.inLen.toNat ∧ ∃ b, s.holds s.inPtr.toNat [b]) ∧
    (∃ s : State, s.Inv ∧ s.expects .ref ∧ s.inPtr.toNat + 2 = s.inLen.toNat ∧
      ∃ b b', lenNibble b = 0#4 ∧ s.holds s.inPtr.toNat [b, b']) :=
  ⟨⟨started_inv (by decide), rfl, rfl, by decide⟩, ⟨started_inv (by decide), by decide, holds_of (by decide)⟩,
    ⟨mid x1 .win .lit 0#8 0#8 16#32 16#32 4#32 0#9,
      mid_inv (by decide) (by decide) (by decide) (by decide) (by decide) (by decide), rfl, ⟨rfl, rfl, by decide⟩, rfl⟩,
    ⟨mid x1 .tok .lit 0xF0#8 0x40#8 17#32 17#32 4#32 0#9,
      mid_inv (by decide) (by decide) (by decide) (by decide) (by decide) (by decide), ⟨rfl, rfl⟩, rfl⟩,
    ⟨mid x6 .tok .ref 0x80#8 0x20#8 18#32 18#32 4#32 0#9,
      mid_inv (by decide) (by decide) (by decide) (by decide) (by decide) (by decide), ⟨rfl, rfl⟩, rfl⟩,
    ⟨mid x6 .tok .ref 0x80#8 0x20#8 18#32 19#32 4#32 0#9,
      mid_inv (by decide) (by decide) (by decide) (by decide) (by decide) (by decide), ⟨rfl, rfl⟩, rfl, 0x30#8,
      holds_of (by decide)⟩,
    ⟨mid (header 4#8 ++ [0x80#8, 0x41#8, 0#8, 0#8]) .tok .ref 0x80#8 0x20#8 18#32 20#32 4#32 0#9,
      mid_inv (by decide) (by decide) (by decide) (by decide) (by decide) (by decide), ⟨rfl, rfl⟩, rfl, 0#8, 0#8, by decide,
      holds_of (by decide)⟩⟩

/-- An index past IN_CAP; a control byte, a second and a third reference byte, a magic byte and a length byte not written. -/
theorem witness_UnwrittenInputStopsTheEngine :
    State.reset.cfg.inCap ≤ 4294967296 ∧
    (∃ s : State, s.engineTurn = true ∧ s.expects .win ∧ s.inPtr.toNat < s.inLen.toNat ∧ inByte s s.inPtr.toNat = none) ∧
    (∃ s : State, s.engineTurn = true ∧ s.expects .ref ∧ s.holds s.inPtr.toNat [0x30#8] ∧
      s.inPtr.toNat + 1 < s.inLen.toNat ∧ inByte s (s.inPtr.toNat + 1) = none) ∧
    (∃ s : State, s.engineTurn = true ∧ s.expects .ref ∧ lenNibble 0#8 = 0#4 ∧ s.holds s.inPtr.toNat [0#8, 0#8] ∧
      s.inPtr.toNat + 2 < s.inLen.toNat ∧ inByte s (s.inPtr.toNat + 2) = none) ∧
    ((started [0x59#8] 21#32).engineTurn = true ∧ (started [0x59#8] 21#32).phase = .hdr ∧
      4 ≤ (started [0x59#8] 21#32).inLen.toNat ∧ (∀ j : Fin 1, (inByte (started [0x59#8] 21#32) j).isSome) ∧
      inByte (started [0x59#8] 21#32) 1 = none) ∧
    ((started (x1.take 7) 21#32).phase = .hdr ∧ 16 ≤ (started (x1.take 7) 21#32).inLen.toNat ∧
      (started (x1.take 7) 21#32).holds 0 [0x59#8, 0x61#8, 0x7A#8, 0x30#8] ∧
      (∀ j : Fin 7, (inByte (started (x1.take 7) 21#32) j).isSome) ∧ inByte (started (x1.take 7) 21#32) 7 = none) :=
  ⟨by decide,
    ⟨mid (header 4#8) .win .lit 0#8 0#8 16#32 21#32 4#32 0#9, rfl, ⟨rfl, rfl, by decide⟩, by decide, by decide⟩,
    ⟨mid (x6.take 19) .tok .ref 0x80#8 0x20#8 18#32 20#32 4#32 0#9, rfl, ⟨rfl, rfl⟩, holds_of (by decide), by decide,
      by decide⟩,
    ⟨mid (header 4#8 ++ [0x80#8, 0x41#8, 0#8, 0#8]) .tok .ref 0x80#8 0x20#8 18#32 21#32 4#32 0#9, rfl, ⟨rfl, rfl⟩, by decide,
      holds_of (by decide), by decide, by decide⟩,
    ⟨rfl, rfl, by decide, by decide, by decide⟩, ⟨rfl, by decide, holds_of (by decide), by decide, by decide⟩⟩

/-- A byte to move; a copy at `N`; a copy with nothing left. -/
theorem witness_CopyStepMovesOneByteOrExits : (stCopy.phase = .copy ∧ stCopy.copyRem ≠ 0#9 ∧ stCopy.outPtr ≠ stCopy.outLen ∧
      stCopy.outPtr.toNat ≤ stCopy.outLen.toNat ∧ stCopy.outLen.toNat ≤ stCopy.cfg.outCap) ∧
    { stCopy with outLen := 1#32 }.outPtr = { stCopy with outLen := 1#32 }.outLen ∧
    { stCopy with copyRem := 0#9 }.copyRem = 0#9 := ⟨⟨rfl, by decide, by decide, by decide, by decide⟩, rfl, rfl⟩

theorem witness_CopyReadsTheOutputByte : stCopy.Inv ∧ stCopy.phase = .copy ∧ stCopy.copyRem ≠ 0#9 ∧
    stCopy.outPtr ≠ stCopy.outLen := ⟨stCopy_inv, rfl, by decide, by decide⟩

theorem witness_CopyIsClampedAtTheDecodedLength : stCopy.Inv ∧ stCopy.turns = [] ∧ stCopy.phase = .copy ∧
    stCopy.outLen.toNat - stCopy.outPtr.toNat ≤ stCopy.copyRem.toNat := ⟨stCopy_inv, rfl, rfl, by decide⟩

theorem witness_OverlappingCopyIsPeriodic : stCopy.Inv ∧ stCopy.turns = [] ∧ stCopy.phase = .copy ∧
    3 ≤ stCopy.copyRem.toNat ∧ 3 ≤ stCopy.outLen.toNat - stCopy.outPtr.toNat := ⟨stCopy_inv, rfl, rfl, by decide, by decide⟩

theorem witness_RegisterReadsReturnTheRegister : ((0x14#8).toNat % 4 = 0 ∧ x1Done.phase = .idle) ∧
    ((0x18#8).toNat % 4 = 0 ∧ 0x18#8 ≠ 0x0C#8 ∧ 0x18#8 ≠ 0x10#8 ∧ 0x18#8 ≠ 0x14#8) ∧ stCopy.phase ≠ .idle ∧
    (0x16#8).toNat % 4 ≠ 0 := by decide

theorem witness_StartBeginsAFreshDecode : ((1#32).getLsbD 0 = true ∧ x1Done.phase = .idle) ∧ (2#32).getLsbD 0 = false ∧
    stCopy.phase ≠ .idle := by decide

theorem witness_InputLengthIsWrittenOnlyWhileIdle : x1Done.phase = .idle ∧ stCopy.phase ≠ .idle := by decide

theorem witness_OtherRegisterWritesDoNothing : (0x04#8).toNat % 4 = 0 ∧ 0x04#8 ≠ 0x00#8 ∧ 0x04#8 ≠ 0x08#8 := by decide

theorem witness_InputWritesLandWhileIdle : (State.reset.phase = .idle ∧ (0xFFFFFFFF#32).toNat < State.reset.cfg.inCap) ∧
    stCopy.phase ≠ .idle ∧ { State.reset with cfg := { Config.default with inCap := 21 } }.cfg.inCap ≤ (21#32).toNat := by
  decide

theorem witness_OutputReadsAreValidOnlyAfterDone : x1Done.Inv ∧ (x1Done.status = 0x2#32 ∧ (3#32).toNat < x1Done.outLen.toNat) ∧
    ¬ (x1Done.status = 0x2#32 ∧ (4#32).toNat < x1Done.outLen.toNat) := ⟨x1Done_inv, by decide, by decide⟩

theorem witness_RegisterAccessesOfAnotherFormAreRefused :
    { x1Done with turns := [.host .other] }.turns = .host .other :: [] ∧
    { x1Done with turns := [.host (.regRead .w16 4#32)] }.turns = .host (.regRead .w16 4#32) :: [] ∧ (6#32).toNat % 4 ≠ 0 ∧
    0xFC < (0x100#32).toNat ∧ (0xFC#32).toNat % 4 = 0 ∧ (0xFC#32).toNat ≤ 0xFC := by decide

theorem witness_DecodeOfEncodeIsTheInstruction : (Instr.brefs 15#4 4095#12).wellFormed = true ∧
    encode (.brefs 15#4 4095#12) = .stream .ref [0xFF#8, 0xFF#8] := by decide

theorem witness_EachLengthHasOneEncoding : (1#4 : BitVec 4) ≠ 0#4 ∧ shortLen 1#4 = 3 ∧ longLen 255#8 = 273 := by decide

theorem witness_ItemsWithoutOutputKeepTheRest :
    (∃ t, exec (.hdr stHdr.cfg.magic 4#32) stHdr = .next t) ∧ (∃ t, exec (.ctrl 0xF0#8) stFetch = .next t) ∧
    (∃ t, exec (.brefs 3#4 0#12) stRef = .next t) ∧ (∃ t, exec (.brefl 0#12 0#8) stRefl = .next t) :=
  ⟨⟨_, rfl⟩, ⟨_, rfl⟩, ⟨_, rfl⟩, ⟨_, rfl⟩⟩

/-- A literal, a byte of a copy, and the end of a copy. -/
theorem witness_OutputItemsWriteOnlyAtTheCursor : (∃ t, exec (.lit 1#8) stLit = .next t) ∧
    (∃ t, exec .copy stCopy = .next t) ∧ ∃ t, exec .copy { stCopy with copyRem := 0#9 } = .next t ∧ t.outPtr = stCopy.outPtr :=
  ⟨⟨_, rfl⟩, ⟨_, rfl⟩, ⟨_, rfl, rfl⟩⟩

theorem witness_HostOperationsKeepTheRest : (∃ t, exec (.regRead 0x04#8) x1Done = .next t) ∧
    (∃ t, exec (.outRead 3#32) x1Done = .next t) ∧ (∃ t, exec (.regWriteInLen 1#32) x1Done = .next t) ∧
    (∃ t, exec (.regWriteOther 0x04#8 1#32) x1Done = .next t) ∧ (∃ t, exec (.inWrite 0#32 1#8) x1Done = .next t) ∧
    ∃ t, exec (.regWriteCtrl 1#32) x1Done = .next t := ⟨⟨_, rfl⟩, ⟨_, rfl⟩, ⟨_, rfl⟩, ⟨_, rfl⟩, ⟨_, rfl⟩, ⟨_, rfl⟩⟩

theorem witness_HistoryIsWrittenWithTheOutput : (∃ t, step stLit = .next t ∧ stLit.turns.head? ≠ some .reset) ∧
    ∃ t, step stCopy = .next t ∧ stCopy.turns.head? ≠ some .reset := ⟨⟨_, rfl, by decide⟩, ⟨_, rfl, by decide⟩⟩

theorem witness_InputIsFrozenWhileBusy : ∃ t, step stCopy = .next t ∧ stCopy.phase ≠ .idle ∧
    stCopy.turns.head? ≠ some .reset := ⟨_, rfl, by decide, by decide⟩

theorem witness_OnlyStartLeavesIdle : ∃ s t : State, step s = .next t ∧ s.phase = .idle ∧ t.phase ≠ .idle :=
  ⟨{ x1Done with turns := [.host (.regWrite .w32 0#32 1#32)] }, _, rfl, rfl, by decide⟩

theorem witness_OnlyTheEndOrAResetStopsADecode : ∃ s t : State, step s = .next t ∧ s.phase ≠ .idle ∧ t.phase = .idle :=
  ⟨started x1 3#32, _, rfl, by decide, rfl⟩

theorem witness_HostNeverDisturbsADecode : ∃ (s t : State) (a : HostAccess), s.turns = .host a :: [] ∧ s.phase ≠ .idle ∧
    step s = .next t :=
  ⟨{ stCopy with turns := [.host (.regWrite .w32 0#32 1#32)] }, _, _, rfl, by decide, rfl⟩

theorem witness_EveryStopRecordsItsCursors : ∃ s t : State, s.Inv ∧ step s = .next t ∧ s.phase ≠ .idle ∧ t.phase = .idle ∧
    s.turns.head? ≠ some .reset := ⟨started x1 3#32, _, started_inv (by decide), rfl, by decide, rfl, by decide⟩

theorem witness_CursorsOnlyAdvance : ∃ t, stRef.Inv ∧ step stRef = .next t ∧ stRef.inPayload ∧
    stRef.turns.head? ≠ some .reset := ⟨_, stRef_inv, rfl, .inr (.inl rfl), by decide⟩

theorem witness_OutputBytesAreWrittenOnce : ∃ t, stCopy.Inv ∧ step stCopy = .next t ∧ outByte stCopy 0 = some 0x41#8 :=
  ⟨_, stCopy_inv, rfl, by decide⟩

theorem witness_StatusStaysALegalValue : ∃ t, stWin.statusLegal ∧ step stWin = .next t := ⟨_, stWin_inv.status_legal, rfl⟩

theorem witness_EveryStepKeepsTheInvariant : (∃ t, stCopy.Inv ∧ step stCopy = .next t) ∧ (∃ t, stLit.Inv ∧ step stLit = .next t) ∧
    (∃ t, stFetch.Inv ∧ step stFetch = .next t) ∧ ∃ t, x1Done.Inv ∧ step x1Done = .next t :=
  ⟨⟨_, stCopy_inv, rfl⟩, ⟨_, stLit_inv, rfl⟩, ⟨_, stFetch_inv, rfl⟩, ⟨_, x1Done_inv, rfl⟩⟩

theorem witness_EveryDecodeEndsInTime : stHdr.Inv ∧ stHdr.turns = [] ∧ stHdr.phase = .hdr ∧ stHdr.resident := by
  refine ⟨stHdr_inv, rfl, rfl, fun i hi => ?_⟩
  have h : ∀ i : Fin 21, (inByte stHdr i).isSome = true := by decide
  exact h ⟨i, hi⟩

/-- A run to the end alone, and one with a host read in between and another reserved byte. -/
theorem witness_DecodeIsDeterministic : ∃ (s₁ s₂ t₁ t₂ : State) (k₁ k₂ : Nat), s₁.Inv ∧ s₂.Inv ∧ .reset ∉ s₁.turns ∧
    .reset ∉ s₂.turns ∧ s₁.phase = .hdr ∧ s₂.phase = .hdr ∧ s₁.cfg.magic = s₂.cfg.magic ∧ s₁.cfg.outCap = s₂.cfg.outCap ∧
    s₁.inLen = s₂.inLen ∧ (∀ i, i < s₁.inLen.toNat → i < 8 ∨ 16 ≤ i → inByte s₁ i = inByte s₂ i) ∧
    decodeRun k₁ s₁ = .next t₁ ∧ t₁.phase = .idle ∧ decodeRun k₂ s₂ = .next t₂ ∧ t₂.phase = .idle := by
  refine ⟨started (header 0#8) 16#32, { started ((header 0#8).take 8) 16#32 with turns := [.host (.regRead .w32 4#32)] }, _, _,
    2, 3, started_inv (by decide), { started_inv (bytes := (header 0#8).take 8) (len := 16#32) (by decide) with }, by decide,
    by decide, rfl, rfl, rfl, rfl, rfl, fun i hi hr => ?_, rfl, rfl, rfl, rfl⟩
  have h : ∀ i : Fin 8, inByte (started (header 0#8) 16#32) i =
    inByte { started ((header 0#8).take 8) 16#32 with turns := [.host (.regRead .w32 4#32)] } i := by decide
  have hi : i < 16 := hi
  exact h ⟨i, by omega⟩

end Sys2Proof.Tests
end

section
/-!
PROOFS. Input memory (20_memory.md): the engine reads the stream in increasing order (R60), so the first needed byte that
was never written is the one the fetch stops at (R52).
-/

namespace Sys2Proof.Machine

/-! ### The fetch looks at IN, `L`, the cursor and the magic only -/

@[simp] theorem fetchByte_popTurn (s : State) (i : Nat) : fetchByte s.popTurn i = fetchByte s i := rfl

@[simp] theorem fetchBytes_popTurn (s : State) (p k : Nat) : fetchBytes s.popTurn p k = fetchBytes s p k := by
  induction k generalizing p with
  | zero => rfl
  | succ k ih => simp only [fetchBytes, fetchByte_popTurn, ih]

@[simp] theorem fetchItem_popTurn (c : StreamCtx) (s : State) : fetchItem c s.popTurn = fetchItem c s := by
  cases c <;> simp [fetchItem, fetchHdr, fetchRef]

/-! ### The engine's turn in a stream context -/

/-- The context that the phase, the mask and the token select is the one the engine fetches in (R30, R79). -/
theorem nextMove_of_expects {c : StreamCtx} {s : State} (h : s.expects c) : nextMove s = fetchMove c s := by
  cases c with
  | hdr =>
    have hp : s.phase = .hdr := h
    simp [nextMove, hp]
  | win =>
    obtain ⟨hp, hm, ho⟩ := h
    simp [nextMove, hp, hm, ho]
  | lit =>
    obtain ⟨hp, ht⟩ := h
    simp [nextMove, hp, ht]
  | ref =>
    obtain ⟨hp, ht⟩ := h
    simp [nextMove, hp, ht]

/-- A fetch that meets an unwritten byte stops the run with its index (R52). -/
theorem step_of_fetchItem_error {c : StreamCtx} {s : State} {i : Nat} (ht : s.engineTurn = true) (hx : s.expects c)
    (hf : fetchItem c s = .error i) : step s = .fault (.unwrittenInput i) := by
  have hp : s.popTurn.expects c := by cases c <;> exact hx
  have hm : nextMove s.popTurn = .unwritten i := by
    rw [nextMove_of_expects hp]
    simp [fetchMove, hf]
  rw [step_engine ht]
  simp [engineStep, hm]

/-! ### Unwritten bytes -/

/-- A byte at or past IN_CAP counts as never written (R52). -/
theorem inByte_past_inCap {s : State} {i : Nat} (h : s.cfg.inCap ≤ i) : inByte s i = none :=
  if_neg (Nat.not_lt.mpr h)

theorem fetchByte_of_unwritten {s : State} {i : Nat} (h : i < s.inLen.toNat) (hu : inByte s i = none) :
    fetchByte s i = .error i := by
  simp [fetchByte, h, hu]

/-- A fetch of further bytes stops where the first byte does. -/
theorem fetchBytes_succ_of_error {s : State} {p i : Nat} (k : Nat) (h : fetchByte s p = .error i) :
    fetchBytes s p (k + 1) = .error i := by
  simp [fetchBytes, h]

/-- Behind a byte that is there, the fetch stops where the rest does. -/
theorem fetchBytes_succ_of_rest_error {s : State} {p k i : Nat} {b : Byte} (hb : fetchByte s p = .ok b)
    (h : fetchBytes s (p + 1) k = .error i) : fetchBytes s p (k + 1) = .error i := by
  simp [fetchBytes, hb, h, Except.map]

/-- A fetch stops at the first unwritten byte below `L`. -/
theorem fetchBytes_of_unwritten {s : State} {p j k : Nat} (hj : j < k) (hL : p + j < s.inLen.toNat)
    (hw : ∀ i, i < j → (inByte s (p + i)).isSome) (hu : inByte s (p + j) = none) :
    fetchBytes s p k = .error (p + j) := by
  induction k generalizing p j with
  | zero => exact absurd hj (Nat.not_lt_zero j)
  | succ k ih =>
    cases j with
    | zero => exact fetchBytes_succ_of_error k (fetchByte_of_unwritten hL hu)
    | succ j =>
      obtain ⟨b, hb⟩ := Option.isSome_iff_exists.mp (hw 0 (Nat.succ_pos j))
      refine fetchBytes_succ_of_rest_error (fetchByte_of_written (by omega) hb) ?_
      rw [← Nat.succ_add_eq_add_succ p j] at hL hu ⊢
      refine ih (Nat.lt_of_succ_lt_succ hj) hL (fun i hi => ?_) hu
      rw [Nat.succ_add_eq_add_succ]
      exact hw (i + 1) (Nat.succ_lt_succ hi)

/-- What the stream holds was written (R51). -/
theorem State.holds.isSome {s : State} {p : Nat} {bytes : List Byte} (h : s.holds p bytes) {i : Nat}
    (hi : i < bytes.length) : (inByte s (p + i)).isSome :=
  Option.isSome_iff_exists.mpr ⟨_, (h i _ (List.getElem?_eq_getElem hi)).2⟩

/-- The byte after those that the stream holds, where it is needed and unwritten, stops the fetch. -/
theorem fetchBytes_after_holds {s : State} {p k : Nat} {bytes : List Byte} (h : s.holds p bytes)
    (hk : bytes.length < k) (hL : p + bytes.length < s.inLen.toNat) (hu : inByte s (p + bytes.length) = none) :
    fetchBytes s p k = .error (p + bytes.length) :=
  fetchBytes_of_unwritten hk hL (fun _ hi => h.isSome hi) hu

/-! ### The items whose size or presence depends on their first bytes -/

/-- The first byte of a back-reference gives its size (R111, R112). -/
theorem fetchItem_ref_of_holds {s : State} {b : Byte} {bytes : List Byte} (h : s.holds s.inPtr.toNat (b :: bytes)) :
    fetchItem .ref s = fetchBytes s s.inPtr.toNat (if lenNibble b = 0#4 then 3 else 2) := by
  obtain ⟨hL, hb⟩ := h 0 b rfl
  have first : fetchByte s s.inPtr.toNat = .ok b := fetchByte_of_written hL hb
  simp [fetchItem, fetchRef, first]

/-- With four bytes the header's fetch begins with the magic (R90). -/
theorem fetchItem_hdr_of_magic_error {s : State} {i : Nat} (hL : 4 ≤ s.inLen.toNat) (hf : fetchBytes s 0 4 = .error i) :
    fetchItem .hdr s = .error i := by
  simp [fetchItem, fetchHdr, Nat.not_lt.mpr hL, hf]

/-- Behind the right magic, with sixteen bytes, the header's fetch goes on with the length field (R90). -/
theorem fetchItem_hdr_of_length_error {s : State} {i : Nat} (hL : 16 ≤ s.inLen.toNat)
    (hm : s.holds 0 [s.cfg.magic.b0, s.cfg.magic.b1, s.cfg.magic.b2, s.cfg.magic.b3])
    (hf : fetchBytes s 4 4 = .error i) : fetchItem .hdr s = .error i := by
  have hL4 : ¬ s.inLen.toNat < 4 := by omega
  have tag := fetchBytes_of_holds hm
  simp only [List.length_cons, List.length_nil, Nat.zero_add, Nat.reduceAdd] at tag
  simp [fetchItem, fetchHdr, hdrSize, hL4, hL, tag, hf, Except.map]

/-! ### The stop at each byte the engine can need -/

/-- The first byte of a control byte, a literal or a back-reference. -/
theorem fetchItem_first_unwritten {c : StreamCtx} {s : State} (hc : c ≠ .hdr) (hL : s.inPtr.toNat < s.inLen.toNat)
    (hu : inByte s s.inPtr.toNat = none) : fetchItem c s = .error s.inPtr.toNat := by
  have hf := fetchByte_of_unwritten hL hu
  cases c with
  | hdr => exact absurd rfl hc
  | win => simp [fetchItem, fetchBytes, hf]
  | lit => simp [fetchItem, fetchBytes, hf]
  | ref => simp [fetchItem, fetchRef, hf]

/-- The second byte of a back-reference, whatever its size. -/
theorem fetchItem_ref_second_unwritten {s : State} {b : Byte} (h : s.holds s.inPtr.toNat [b])
    (hL : s.inPtr.toNat + 1 < s.inLen.toNat) (hu : inByte s (s.inPtr.toNat + 1) = none) :
    fetchItem .ref s = .error (s.inPtr.toNat + 1) := by
  rw [fetchItem_ref_of_holds h]
  refine fetchBytes_after_holds h ?_ hL hu
  split <;> simp

/-- The third byte of a long back-reference. -/
theorem fetchItem_ref_third_unwritten {s : State} {b b' : Byte} (hn : lenNibble b = 0#4)
    (h : s.holds s.inPtr.toNat [b, b']) (hL : s.inPtr.toNat + 2 < s.inLen.toNat)
    (hu : inByte s (s.inPtr.toNat + 2) = none) : fetchItem .ref s = .error (s.inPtr.toNat + 2) := by
  rw [fetchItem_ref_of_holds h, if_pos hn]
  exact fetchBytes_after_holds h (by simp) hL hu

/-- A byte of the magic. -/
theorem fetchItem_hdr_magic_unwritten {s : State} {k : Nat} (hL : 4 ≤ s.inLen.toNat) (hk : k < 4)
    (hw : ∀ j, j < k → (inByte s j).isSome) (hu : inByte s k = none) : fetchItem .hdr s = .error k := by
  have stop : fetchBytes s 0 4 = .error (0 + k) :=
    fetchBytes_of_unwritten hk (by omega) (by simpa using hw) (by simpa using hu)
  rw [Nat.zero_add] at stop
  exact fetchItem_hdr_of_magic_error hL stop

/-- A byte of the length field. -/
theorem fetchItem_hdr_length_unwritten {s : State} {k : Nat} (hL : 16 ≤ s.inLen.toNat)
    (hm : s.holds 0 [s.cfg.magic.b0, s.cfg.magic.b1, s.cfg.magic.b2, s.cfg.magic.b3]) (hk : k < 8) (hk4 : 4 ≤ k)
    (hw : ∀ j, j < k → (inByte s j).isSome) (hu : inByte s k = none) : fetchItem .hdr s = .error k := by
  obtain ⟨j, rfl⟩ := Nat.exists_eq_add_of_le hk4
  exact fetchItem_hdr_of_length_error hL hm
    (fetchBytes_of_unwritten (by omega) (by omega) (fun i hi => hw (4 + i) (by omega)) hu)

/-- Settles O24: in each context the fetch stops at the first needed byte that was never written, and the engine's step is
the fault with that index. -/
theorem unwrittenInputStopsTheEngine : Obligations.UnwrittenInputStopsTheEngine := by
  intro s ht
  refine ⟨fun i => inByte_past_inCap, ?first, ?second, ?third, ?magic, ?length⟩
  case first =>
    rintro (hx | hx | hx) hL hu
    all_goals exact step_of_fetchItem_error ht hx (fetchItem_first_unwritten (by decide) hL hu)
  case second =>
    intro b hx h hL hu
    exact step_of_fetchItem_error ht hx (fetchItem_ref_second_unwritten h hL hu)
  case third =>
    intro b b' hx hn h hL hu
    exact step_of_fetchItem_error ht hx (fetchItem_ref_third_unwritten hn h hL hu)
  case magic =>
    intro hp hL k hk hw hu
    exact step_of_fetchItem_error (c := .hdr) ht hp (fetchItem_hdr_magic_unwritten hL hk hw hu)
  case length =>
    intro hp hL hm k hk hk4 hw hu
    exact step_of_fetchItem_error (c := .hdr) ht hp (fetchItem_hdr_length_unwritten hL hm hk hk4 hw hu)

end Sys2Proof.Machine
end

section
/-!
PROOFS. Encoding (30_encoding.md): the two ranges of lengths are disjoint and together 3..273, and each length names its
own field value (R76).
-/

namespace Sys2Proof.Machine

/-! ### The ranges of the two forms -/

theorem shortLen_le (n : BitVec 4) : shortLen n ≤ 17 := by
  have := n.isLt
  unfold shortLen
  omega

theorem le_shortLen {n : BitVec 4} (h : n ≠ 0#4) : 3 ≤ shortLen n := by
  have := BitVec.toNat_ne_iff_ne.mpr h
  simp only [BitVec.toNat_ofNat, Nat.zero_mod] at this
  unfold shortLen
  omega

theorem le_longLen (e : Byte) : 18 ≤ longLen e := Nat.le_add_left 18 e.toNat

theorem longLen_le (e : Byte) : longLen e ≤ 273 := by
  have := e.isLt
  unfold longLen
  omega

/-! ### Each length names one field value -/

theorem shortLen_injective : Function.Injective shortLen := fun _ _ h => BitVec.eq_of_toNat_eq (Nat.add_right_cancel h)

theorem longLen_injective : Function.Injective longLen := fun _ _ h => BitVec.eq_of_toNat_eq (Nat.add_right_cancel h)

theorem shortLen_ne_longLen (n : BitVec 4) (e : Byte) : shortLen n ≠ longLen e := by
  have := shortLen_le n
  have := le_longLen e
  omega

theorem exists_shortLen_eq {len : Nat} (h₁ : 3 ≤ len) (h₂ : len ≤ 17) : ∃ n, n ≠ 0#4 ∧ shortLen n = len := by
  have hn : shortLen (BitVec.ofNatLT (len - 2) (by omega)) = len := Nat.sub_add_cancel (by omega)
  refine ⟨_, fun h0 => ?_, hn⟩
  have h2 : shortLen 0#4 = 2 := rfl
  rw [h0, h2] at hn
  omega

theorem exists_longLen_eq {len : Nat} (h₁ : 18 ≤ len) (h₂ : len ≤ 273) : ∃ e, longLen e = len :=
  ⟨BitVec.ofNatLT (len - 18) (by omega), Nat.sub_add_cancel h₁⟩

/-- Settles O40: lengths up to 17 have a short form and the others a long one; no length has both, and neither form maps
two field values to one length. -/
theorem eachLengthHasOneEncoding : Obligations.EachLengthHasOneEncoding := by
  refine ⟨fun n hn => ⟨rfl, le_shortLen hn, shortLen_le n⟩, fun e => ⟨rfl, le_longLen e, longLen_le e⟩, ?_⟩
  intro len d h₁ h₂
  rcases Nat.lt_or_ge 17 len with hlong | hshort
  · obtain ⟨e, rfl⟩ := exists_longLen_eq hlong h₂
    refine ⟨.brefl d e, .inr ⟨e, rfl, rfl⟩, ?_⟩
    rintro _ (⟨n, -, -, hl⟩ | ⟨e', rfl, hl⟩)
    · exact absurd hl (shortLen_ne_longLen n e)
    · rw [longLen_injective hl]
  · obtain ⟨n, hn, rfl⟩ := exists_shortLen_eq h₁ hshort
    refine ⟨.brefs n d, .inl ⟨n, hn, rfl, rfl⟩, ?_⟩
    rintro _ (⟨n', -, rfl, hl⟩ | ⟨e, -, hl⟩)
    · rw [shortLen_injective hl]
    · exact absurd hl.symm (shortLen_ne_longLen n e)

end Sys2Proof.Machine
end

section
/-!
PROOFS. Header (40_header.md): what the fetch hands the parser for each input length (R90), and so what the HDR step
answers for each; the length field's value (R92); and the decode of an empty output (R95).
-/

namespace Sys2Proof

/-- The four bytes of a magic, as they stand in the stream (R91). -/
def Magic.bytes (m : Magic) : List Byte := [m.b0, m.b1, m.b2, m.b3]

theorem Magic.bytes_injective {m m' : Magic} (h : m.bytes = m'.bytes) : m = m' := by
  cases m
  cases m'
  simpa [Magic.bytes] using h

end Sys2Proof

namespace Sys2Proof.Machine

/-! ### Parts of a held run of bytes -/

theorem State.holds.left {s : State} {p : Nat} {xs ys : List Byte} (h : s.holds p (xs ++ ys)) : s.holds p xs :=
  fun k b hk => h k b (by rw [List.getElem?_append_left (List.getElem?_eq_some_iff.mp hk).1, hk])

theorem State.holds.right {s : State} {p : Nat} {xs ys : List Byte} (h : s.holds p (xs ++ ys)) :
    s.holds (p + xs.length) ys := by
  intro k b hk
  rw [Nat.add_assoc]
  exact h (xs.length + k) b (by rw [List.getElem?_append_right (Nat.le_add_right ..), Nat.add_sub_cancel_left, hk])

/-- Held bytes lie below `L`. -/
theorem State.holds.le_inLen {s : State} {p : Nat} {bytes : List Byte} (h : s.holds p bytes) (hb : bytes ≠ []) :
    p + bytes.length ≤ s.inLen.toNat := by
  have hpos := List.length_pos_of_ne_nil hb
  have := (h (bytes.length - 1) _ (List.getElem?_eq_getElem (by omega))).1
  omega

/-! ### The header's fetch -/

/-- Below four bytes nothing is read (R90). -/
theorem fetchItem_hdr_short {s : State} (hL : s.inLen.toNat < 4) :
    fetchItem .hdr s = .ok (List.replicate 16 0x00#8) := if_pos hL

/-- Behind a wrong magic, or below sixteen bytes, only the magic is read (R90). -/
theorem fetchItem_hdr_magic_only {s : State} {m : Magic} (h : s.holds 0 m.bytes)
    (hx : m ≠ s.cfg.magic ∨ s.inLen.toNat < 16) :
    fetchItem .hdr s = .ok (m.bytes ++ List.replicate 12 0x00#8) := by
  have hL : 4 ≤ s.inLen.toNat := h.le_inLen (by simp [Magic.bytes])
  have tag : fetchBytes s 0 4 = .ok m.bytes := fetchBytes_of_holds h
  have stop : ¬ (m.bytes = s.cfg.magic.bytes ∧ 16 ≤ s.inLen.toNat) := by
    rintro ⟨hm, h16⟩
    exact hx.elim (· (Magic.bytes_injective hm)) (by omega)
  simp only [fetchItem, fetchHdr, tag, if_neg (Nat.not_lt.mpr hL)]
  exact if_neg stop

/-- Behind the right magic, with sixteen bytes, the length field is read too (R90). -/
theorem fetchItem_hdr_full {s : State} {len : List Byte} (hL : 16 ≤ s.inLen.toNat) (hlen : len.length = 4)
    (h : s.holds 0 (s.cfg.magic.bytes ++ len)) :
    fetchItem .hdr s = .ok (s.cfg.magic.bytes ++ len ++ List.replicate 8 0x00#8) := by
  have hL4 : ¬ s.inLen.toNat < 4 := by omega
  have tag : fetchBytes s 0 4 = .ok s.cfg.magic.bytes := fetchBytes_of_holds h.left
  have rest : fetchBytes s 4 len.length = .ok len := fetchBytes_of_holds h.right
  rw [hlen] at rest
  simp only [fetchItem, fetchHdr, tag, rest, if_neg hL4]
  exact if_pos ⟨rfl, hL⟩

/-! ### The engine's HDR step -/

/-- A fetched item that decodes is run in the state in which the turn is taken off the list (R30). -/
theorem step_of_fetchItem_ok {c : StreamCtx} {s : State} {bytes : List Byte} {i : Instr} (ht : s.engineTurn = true)
    (hx : s.expects c) (hf : fetchItem c s = .ok bytes) (hd : decode (.stream c bytes) = .ok i) :
    step s = exec i s.popTurn := by
  have hp : s.popTurn.expects c := by cases c <;> exact hx
  have hm : nextMove s.popTurn = .instr i := by
    rw [nextMove_of_expects hp]
    simp [fetchMove, hf, hd]
  rw [step_engine ht]
  simp [engineStep, hm]

theorem execHdr_of_short {m : Magic} {n : Word} {s : State} (hp : s.phase = .hdr) (hL : s.inLen.toNat < 4) :
    execHdr m n s = .next (raiseError .truncatedInput s) :=
  (selected_of _ hp).trans (if_pos hL)

theorem execHdr_of_wrong_magic {m : Magic} {n : Word} {s : State} (hp : s.phase = .hdr) (hL : 4 ≤ s.inLen.toNat)
    (hm : m ≠ s.cfg.magic) : execHdr m n s = .next (raiseError .invalidMagic s) := by
  rw [execHdr, selected_of _ hp, if_neg (Nat.not_lt.mpr hL), if_pos hm]

theorem execHdr_of_cut {n : Word} {s : State} (hp : s.phase = .hdr) (hL : s.inLen.toNat < 16) :
    execHdr s.cfg.magic n s = .next (raiseError .truncatedInput s) := by
  rw [execHdr, selected_of _ hp, if_neg (not_not_intro rfl), if_pos (show s.inLen.toNat < hdrSize from hL), ite_self]

/-- Past the magic and the length of the input, the capacity alone decides (R90 d). -/
theorem execHdr_of_complete {n : Word} {s : State} (hp : s.phase = .hdr) (hL : 16 ≤ s.inLen.toNat) :
    execHdr s.cfg.magic n s =
      if s.cfg.outCap < n.toNat then .next (raiseError .capacityExceeded { s with outLen := n })
      else .next { s with outLen := n, inPtr := 16#32, outPtr := 0#32, mask := 0x00#8, phase := .win } := by
  have hL4 : ¬ s.inLen.toNat < 4 := by omega
  have hL16 : ¬ s.inLen.toNat < hdrSize := Nat.not_lt.mpr hL
  rw [execHdr, selected_of _ hp, if_neg hL4, if_neg (not_not_intro rfl), if_neg hL16]

/-- R90 (a). -/
theorem step_hdr_short {s : State} (ht : s.engineTurn = true) (hp : s.phase = .hdr) (hL : s.inLen.toNat < 4) :
    step s = .next (raiseError .truncatedInput s.popTurn) :=
  (step_of_fetchItem_ok (c := .hdr) ht hp (fetchItem_hdr_short hL) rfl).trans (execHdr_of_short hp hL)

/-- R90 (b). -/
theorem step_hdr_wrong_magic {s : State} {m : Magic} (ht : s.engineTurn = true) (hp : s.phase = .hdr)
    (h : s.holds 0 m.bytes) (hm : m ≠ s.cfg.magic) : step s = .next (raiseError .invalidMagic s.popTurn) :=
  (step_of_fetchItem_ok (c := .hdr) ht hp (fetchItem_hdr_magic_only h (.inl hm)) rfl).trans
    (execHdr_of_wrong_magic hp (h.le_inLen (by simp [Magic.bytes])) hm)

/-- R90 (c). -/
theorem step_hdr_cut {s : State} (ht : s.engineTurn = true) (hp : s.phase = .hdr)
    (h : s.holds 0 s.cfg.magic.bytes) (hL : s.inLen.toNat < 16) :
    step s = .next (raiseError .truncatedInput s.popTurn) :=
  (step_of_fetchItem_ok (c := .hdr) ht hp (fetchItem_hdr_magic_only h (.inr hL)) rfl).trans
    (execHdr_of_cut (s := s.popTurn) hp hL)

/-- A complete header with the right magic is run with the length that its field holds (R90 d, R92). -/
theorem step_hdr_complete {s : State} {a b c d : Byte} (ht : s.engineTurn = true) (hp : s.phase = .hdr)
    (hL : 16 ≤ s.inLen.toNat) (h : s.holds 0 (s.cfg.magic.bytes ++ [a, b, c, d])) :
    step s = execHdr s.cfg.magic (be32 a b c d) s.popTurn :=
  step_of_fetchItem_ok (c := .hdr) ht hp (fetchItem_hdr_full hL rfl h) rfl

/-- R90 (d). -/
theorem step_hdr_over_capacity {s : State} {a b c d : Byte} (ht : s.engineTurn = true) (hp : s.phase = .hdr)
    (hL : 16 ≤ s.inLen.toNat) (h : s.holds 0 (s.cfg.magic.bytes ++ [a, b, c, d]))
    (hn : s.cfg.outCap < (be32 a b c d).toNat) :
    step s = .next (raiseError .capacityExceeded { s.popTurn with outLen := be32 a b c d }) :=
  (step_hdr_complete ht hp hL h).trans ((execHdr_of_complete (s := s.popTurn) hp hL).trans (if_pos hn))

/-- R90, R94: the header is accepted. -/
theorem step_hdr_accepted {s : State} {a b c d : Byte} (ht : s.engineTurn = true) (hp : s.phase = .hdr)
    (hL : 16 ≤ s.inLen.toNat) (h : s.holds 0 (s.cfg.magic.bytes ++ [a, b, c, d]))
    (hn : (be32 a b c d).toNat ≤ s.cfg.outCap) :
    step s = .next { s.popTurn with
      outLen := be32 a b c d, inPtr := 16#32, outPtr := 0#32, mask := 0x00#8, phase := .win } :=
  (step_hdr_complete ht hp hL h).trans
    ((execHdr_of_complete (s := s.popTurn) hp hL).trans (if_neg (Nat.not_lt.mpr hn)))

/-- Settles O8: the fetch and the parser make the same checks in the same order, so each outcome has its own step lemma;
the registers of a fresh decode come from the invariant. -/
theorem headerStepIsTheParser : Obligations.HeaderStepIsTheParser := by
  intro s ht hp
  refine ⟨step_hdr_short ht hp, ?magic, step_hdr_cut ht hp, ?length, ?fresh⟩
  case magic =>
    intro m0 m1 m2 m3 h hne
    refine step_hdr_wrong_magic (m := ⟨m0, m1, m2, m3⟩) ht hp h fun heq => hne ?_
    rw [← heq]
    exact ⟨rfl, rfl, rfl, rfl⟩
  case length =>
    intro a b c d hL h
    exact ⟨step_hdr_over_capacity ht hp hL h, step_hdr_accepted ht hp hL h⟩
  case fresh =>
    intro hi
    obtain ⟨hin, hout, hlen, -⟩ := hi.hdr_fresh hp
    exact ⟨hin, hout, hlen⟩

/-! ### The length field -/

/-- A byte shifted to a place inside the word loses no bit. -/
theorem toNat_setWidth_shiftLeft (b : Byte) {k : Nat} (hk : k ≤ 24) : (b.setWidth 32 <<< k).toNat = b.toNat <<< k := by
  have hb : b.toNat <<< k < 2 ^ 32 :=
    (Nat.shiftLeft_lt b.isLt).trans_le (Nat.pow_le_pow_right (by decide) (by omega))
  rw [BitVec.toNat_shiftLeft, BitVec.toNat_setWidth_of_le (by decide), Nat.mod_eq_of_lt hb]

/-- The four bytes of a big-endian field stand one after the other, the first on top (R54). -/
theorem be32_toNat_eq_append (a b c d : Byte) : (be32 a b c d).toNat = (a ++ b ++ c ++ d).toNat := by
  have hd : (d.setWidth 32).toNat = d.toNat := BitVec.toNat_setWidth_of_le (by decide)
  have ha := toNat_setWidth_shiftLeft a (k := 24) (by decide)
  have hb := toNat_setWidth_shiftLeft b (k := 16) (by decide)
  have hc := toNat_setWidth_shiftLeft c (k := 8) (by decide)
  simp only [be32, BitVec.toNat_or, ha, hb, hc, hd, BitVec.toNat_append, Nat.shiftLeft_or_distrib,
    ← Nat.shiftLeft_add]

/-- A byte put below a value. -/
theorem toNat_append_byte {w : Nat} (x : BitVec w) (b : Byte) : (x ++ b).toNat = x.toNat * 256 + b.toNat := by
  rw [BitVec.toNat_append, ← Nat.shiftLeft_add_eq_or_of_lt b.isLt, Nat.shiftLeft_eq]

/-- R92, R54: the value of the length field. -/
theorem be32_toNat (a b c d : Byte) :
    (be32 a b c d).toNat = a.toNat * 16777216 + b.toNat * 65536 + c.toNat * 256 + d.toNat := by
  rw [be32_toNat_eq_append, toNat_append_byte, toNat_append_byte, toNat_append_byte]
  ring

/-- Settles O9: the value of the field, and the accepting step, which stores it. -/
theorem headerLengthIsBigEndian : Obligations.HeaderLengthIsBigEndian :=
  fun a b c d => ⟨be32_toNat a b c d, fun _ ht hp hL h hn =>
    ⟨_, step_hdr_accepted ht hp hL h hn, rfl, rfl, rfl, rfl, rfl⟩⟩

/-! ### The empty output -/

/-- A run goes on from the state that its first step answers. -/
theorem run_succ_of_step {s t : State} (k : Nat) (h : step s = .next t) : run (k + 1) s = run k t := by
  rw [run, h]

/-- R100: a WIN step with the output complete is the success stop. -/
theorem step_win_finish {s : State} (ht : s.engineTurn = true) (hp : s.phase = .win) (ho : s.outPtr = s.outLen) :
    step s = .next (finish s.popTurn) := by
  rw [step_engine ht]
  simp [engineStep, nextMove, hp, ho]

/-- Settles O13: the header is accepted with `N = 0`, which no capacity refuses, and the WIN step finishes before it
fetches anything. -/
theorem emptyOutputSucceedsAtOnce : Obligations.EmptyOutputSucceedsAtOnce := by
  intro s hs hp hL h
  have ht : s.engineTurn = true := by simp [State.engineTurn, hs]
  have header := step_hdr_accepted ht hp hL h (Nat.zero_le _)
  refine ⟨_, (run_succ_of_step 1 header).trans (run_succ_of_step 0 (step_win_finish ?_ rfl rfl)),
    rfl, rfl, rfl, rfl, rfl⟩
  simp [State.engineTurn, hs]

end Sys2Proof.Machine
end

section
/-!
PROOFS. Control-bit window (41_window.md): the fetch of one byte, the meaning of a control byte, and what the WIN step answers
in each of its cases (R100 to R102).
-/

namespace Sys2Proof.Machine

/-! ### The fetch of one byte -/

theorem fetchBytes_one_of_written {s : State} {i : Nat} {b : Byte} (h : i < s.inLen.toNat) (hb : inByte s i = some b) :
    fetchBytes s i 1 = .ok [b] := by
  simp [fetchBytes, fetchByte_of_written h hb, Except.map]

theorem fetchBytes_one_past {s : State} {i : Nat} (h : s.inLen.toNat ≤ i) : fetchBytes s i 1 = .ok [0x00#8] := by
  simp [fetchBytes, fetchByte_past h, Except.map]

/-! ### The control byte -/

/-- With no byte left the first read raises TruncatedInput and consumes nothing (R114). -/
theorem consume_succ_past {s : State} (k : Nat) (f : State → Host.Outcome State Fault Refusal)
    (h : s.inLen.toNat ≤ s.inPtr.toNat) : consume (k + 1) s f = .next (raiseError .truncatedInput s) :=
  if_neg (Nat.not_lt.mpr h)

/-- In the context that selects it a control byte is read from the payload, and the bit select follows (R79, R101). -/
theorem execCtrl_of_expects {c : Byte} {s : State} (hx : s.expects .win) :
    execCtrl c s = consume 1 s fun s₁ => .next (selectBit { s₁ with ctrl := c, mask := maskTop }) := if_pos hx

/-- R101: a control byte is needed and none is left. -/
theorem execCtrl_past {c : Byte} {s : State} (hx : s.expects .win) (h : s.inLen.toNat ≤ s.inPtr.toNat) :
    execCtrl c s = .next (raiseError .truncatedInput s) :=
  (execCtrl_of_expects hx).trans (consume_succ_past 0 _ h)

/-- The mask after the bit that follows a fetch (R101, R102). -/
theorem maskNext_maskTop : maskNext maskTop = 0x40#8 := rfl

/-- R101, R102: the control byte is taken, and its top bit is tested before the mask moves on. -/
theorem execCtrl_of_lt {c : Byte} {s : State} (hx : s.expects .win) (h : s.inPtr.toNat < s.inLen.toNat) :
    execCtrl c s = .next { s with
      ctrl := c, inPtr := s.inPtr + 1#32, mask := 0x40#8, tok := tokOf c maskTop, phase := .tok } := by
  rw [execCtrl_of_expects hx, consume_ok 1 s _ h, ← maskNext_maskTop]
  rfl

/-! ### The engine's WIN step -/

/-- R102: with bits of the control byte left, the step is the bit select alone. -/
theorem step_win_select {s : State} (ht : s.engineTurn = true) (hp : s.phase = .win) (ho : s.outPtr ≠ s.outLen)
    (hm : s.mask ≠ 0x00#8) : step s = .next (selectBit s.popTurn) := by
  have hmove : nextMove s.popTurn = .select := by simp [nextMove, hp, ho, hm]
  rw [step_engine ht]
  simp [engineStep, hmove]

/-- R101, R143: the mask is exhausted and so is the input. -/
theorem step_win_past {s : State} (ht : s.engineTurn = true) (hx : s.expects .win)
    (h : s.inLen.toNat ≤ s.inPtr.toNat) : step s = .next (raiseError .truncatedInput s.popTurn) :=
  (step_of_fetchItem_ok ht hx (fetchBytes_one_past h) rfl).trans (execCtrl_past (s := s.popTurn) hx h)

/-- R101, R102: the mask is exhausted and the next byte of the stream is the control byte. -/
theorem step_win_fetch {s : State} {c : Byte} (ht : s.engineTurn = true) (hx : s.expects .win)
    (h : s.inPtr.toNat < s.inLen.toNat) (hc : inByte s s.inPtr.toNat = some c) :
    step s = .next { s.popTurn with
      ctrl := c, inPtr := s.inPtr + 1#32, mask := 0x40#8, tok := tokOf c maskTop, phase := .tok } :=
  (step_of_fetchItem_ok ht hx (fetchBytes_one_of_written h hc) rfl).trans (execCtrl_of_lt (s := s.popTurn) hx h)

/-- Settles O16: the mask and the cursor tell apart the three cases of a WIN step that is not the last, and each has its own
step lemma. -/
theorem windowFetchesTestsThenShifts : Obligations.WindowFetchesTestsThenShifts := by
  intro s ht hp ho
  refine ⟨step_win_select ht hp ho, ?past, ?fetch⟩
  case past =>
    intro hm h
    exact step_win_past ht ⟨hp, hm, ho⟩ h
  case fetch =>
    intro c hm h hc
    exact step_win_fetch ht ⟨hp, hm, ho⟩ h hc

/-- Settles O15: the WIN step tests for the end of the output before it looks at the mask. -/
theorem windowFinishesAtTheDecodedLength : Obligations.WindowFinishesAtTheDecodedLength :=
  fun _ ht hp ho => step_win_finish ht hp ho

end Sys2Proof.Machine
end

section
/-!
PROOFS. Tokens (42_tokens.md): the meaning of a literal (R110); the fields and the size of a back-reference as numbers of its
bytes (R111, R112), its TOK step as one payload read and copy set-up, and the outcomes of that step (R113 to R115).
-/

namespace Sys2Proof.Machine

/-! ### The literal -/

/-- In the context that selects it a literal is read from the payload and written out (R79, R110). -/
theorem execLit_of_expects {v : Byte} {s : State} (hx : s.expects .lit) :
    execLit v s = consume 1 s fun s₁ => withRoom s₁ (.next { putByte v s₁ with phase := .win }) := if_pos hx

/-- R110: a literal is needed and no byte is left. -/
theorem execLit_past {v : Byte} {s : State} (hx : s.expects .lit) (h : s.inLen.toNat ≤ s.inPtr.toNat) :
    execLit v s = .next (raiseError .truncatedInput s) :=
  (execLit_of_expects hx).trans (consume_succ_past 0 _ h)

/-- R110: the byte is taken, goes to OUT and HIST, and the token is done. -/
theorem execLit_of_lt {v : Byte} {s : State} (hx : s.expects .lit) (h : s.inPtr.toNat < s.inLen.toNat)
    (hroom : s.outPtr.toNat < s.cfg.outCap) :
    execLit v s = .next { putByte v { s with inPtr := s.inPtr + 1#32 } with phase := .win } := by
  rw [execLit_of_expects hx, consume_ok 1 s _ h]
  exact withRoom_of_lt hroom

/-- The literal of the engine's turn is the byte at the cursor. -/
theorem step_lit {v : Byte} {s : State} (ht : s.engineTurn = true) (hx : s.expects .lit)
    (h : s.inPtr.toNat < s.inLen.toNat) (hv : inByte s s.inPtr.toNat = some v) : step s = exec (.lit v) s.popTurn :=
  step_of_fetchItem_ok ht hx (fetchBytes_one_of_written h hv) rfl

/-- Settles O18: the cursor against `L` decides the meaning of a literal, and the fetch supplies its byte. -/
theorem literalIsCopiedUnchanged : Obligations.LiteralIsCopiedUnchanged := by
  intro s v hp hk
  have hx : s.expects .lit := ⟨hp, hk⟩
  refine ⟨?written, execLit_past hx, fun ht => step_lit ht hx⟩
  case written =>
    intro h hout hcap
    exact execLit_of_lt hx h (hout.trans_le hcap)

/-! ### The fields of a back-reference, as numbers -/

theorem lenNibble_toNat (b1 : Byte) : (lenNibble b1).toNat = b1.toNat / 16 := by
  have := b1.isLt
  rw [lenNibble, BitVec.extractLsb'_toNat, Nat.shiftRight_eq_div_pow]
  omega

/-- The nibble that selects the long form (R74). -/
theorem lenNibble_eq_zero_iff (b1 : Byte) : lenNibble b1 = 0#4 ↔ b1.toNat / 16 = 0 := by
  rw [← BitVec.toNat_inj, lenNibble_toNat]
  rfl

/-- The low nibble of the first byte stands above the second byte (R74, R77). -/
theorem distField_toNat (b1 b2 : Byte) : (distField b1 b2).toNat = b1.toNat % 16 * 256 + b2.toNat := by
  have low : (b1 &&& 0x0F#8).toNat = b1.toNat % 16 := Nat.and_two_pow_sub_one_eq_mod b1.toNat 4
  have high : ((b1 &&& 0x0F#8).setWidth 12 <<< 8).toNat = (b1.toNat % 16) <<< 8 := by
    rw [BitVec.toNat_shiftLeft, BitVec.toNat_setWidth_of_le (by decide), low]
    apply Nat.mod_eq_of_lt
    rw [Nat.shiftLeft_eq]
    omega
  rw [distField, BitVec.toNat_or, high, BitVec.toNat_setWidth_of_le (by decide),
    ← Nat.shiftLeft_add_eq_or_of_lt b2.isLt, Nat.shiftLeft_eq]

/-- How many bytes a back-reference has, by its first byte (R111, R112). -/
def refSize (b1 : Byte) : Nat := if lenNibble b1 = 0#4 then 3 else 2

/-- The length a back-reference copies (R76): in its first byte, or in its third. -/
def refLen (b1 b3 : Byte) : Nat := if lenNibble b1 = 0#4 then longLen b3 else shortLen (lenNibble b1)

theorem refSize_eq (b1 : Byte) : refSize b1 = if b1.toNat / 16 = 0 then 3 else 2 := by
  simp only [refSize, lenNibble_eq_zero_iff]

theorem refLen_eq (b1 b3 : Byte) :
    refLen b1 b3 = if b1.toNat / 16 = 0 then b3.toNat + 18 else b1.toNat / 16 + 2 := by
  simp only [refLen, lenNibble_eq_zero_iff, longLen, shortLen, lenNibble_toNat]

theorem refSize_of_long {b1 : Byte} (h : lenNibble b1 = 0#4) : refSize b1 = 3 := if_pos h

theorem two_le_refSize (b1 : Byte) : 2 ≤ refSize b1 := by
  unfold refSize
  split <;> decide

theorem refSize_le (b1 : Byte) : refSize b1 ≤ 3 := by
  unfold refSize
  split <;> decide

theorem refLen_le (b1 b3 : Byte) : refLen b1 b3 ≤ 273 := by
  unfold refLen
  split
  · exact longLen_le b3
  · exact (shortLen_le _).trans (by decide)

/-! ### The engine's TOK step of a back-reference -/

/-- The two forms differ only in how many bytes they read and what length they hand to the copy set-up (R111, R112). The
third byte is fetched for the long form alone. -/
theorem step_ref {s : State} {b1 b2 b3 : Byte} (ht : s.engineTurn = true) (hx : s.expects .ref)
    (h1 : fetchByte s s.inPtr.toNat = .ok b1) (h2 : fetchByte s (s.inPtr.toNat + 1) = .ok b2)
    (h3 : lenNibble b1 = 0#4 → fetchByte s (s.inPtr.toNat + 2) = .ok b3) :
    step s = consume (refSize b1) s.popTurn fun s₁ => .next (setupCopy (distField b1 b2) (refLen b1 b3) s₁) := by
  have hsel : s.popTurn.phase = .tok ∧ s.popTurn.tok = .ref := hx
  by_cases hn : lenNibble b1 = 0#4
  · have hf : fetchItem .ref s = .ok [b1, b2, b3] := by
      simp [fetchItem, fetchRef, fetchBytes, hn, h1, h2, h3 hn, Except.map]
    have hd : decode (.stream .ref [b1, b2, b3]) = .ok (.brefl (distField b1 b2) b3) := by
      simp [decode, decodeStream, hn, Except.map]
    rw [step_of_fetchItem_ok ht hx hf hd, refSize, refLen, if_pos hn, if_pos hn]
    exact selected_of _ hsel
  · have hf : fetchItem .ref s = .ok [b1, b2] := by
      simp [fetchItem, fetchRef, fetchBytes, hn, h1, h2, Except.map]
    have hd : decode (.stream .ref [b1, b2]) = .ok (.brefs (lenNibble b1) (distField b1 b2)) := by
      simp [decode, decodeStream, hn, Except.map]
    rw [step_of_fetchItem_ok ht hx hf hd, refSize, refLen, if_neg hn, if_neg hn]
    exact (if_neg hn).trans (selected_of _ hsel)

/-- The fetch supplies a byte that the stream holds. -/
theorem State.holds.fetchByte_eq {s : State} {p k : Nat} {bytes : List Byte} {b : Byte} (h : s.holds p bytes)
    (hk : bytes[k]? = some b) : fetchByte s (p + k) = .ok b :=
  fetchByte_of_written (h k b hk).1 (h k b hk).2

/-- A token that the stream holds ends at or below `L`. -/
theorem ref_le_inLen_of_holds {s : State} {p : Nat} {b1 b2 b3 : Byte}
    (h : s.holds p ([b1, b2, b3].take (refSize b1))) : p + refSize b1 ≤ s.inLen.toNat := by
  have hpos := two_le_refSize b1
  have hlen : ([b1, b2, b3].take (refSize b1)).length = refSize b1 := by
    rw [List.length_take]
    exact Nat.min_eq_left (refSize_le b1)
  have hin := h.le_inLen (List.ne_nil_of_length_pos (by omega))
  rwa [hlen] at hin

/-- R113: a token that the stream holds is consumed whole before its distance is looked at. -/
theorem step_ref_complete {s : State} {b1 b2 b3 : Byte} (ht : s.engineTurn = true) (hx : s.expects .ref)
    (h : s.holds s.inPtr.toNat ([b1, b2, b3].take (refSize b1))) :
    step s = .next (setupCopy (distField b1 b2) (refLen b1 b3)
      { s.popTurn with inPtr := s.inPtr + BitVec.ofNat 32 (refSize b1) }) := by
  have hk := two_le_refSize b1
  have h1 := h.fetchByte_eq (k := 0) (List.getElem?_take_of_lt (by omega))
  have h2 := h.fetchByte_eq (k := 1) (List.getElem?_take_of_lt (by omega))
  have h3 (hn : lenNibble b1 = 0#4) : fetchByte s (s.inPtr.toNat + 2) = .ok b3 :=
    h.fetchByte_eq (k := 2) (by rw [refSize_of_long hn]; rfl)
  exact (step_ref ht hx h1 h2 h3).trans (consume_ok _ s.popTurn _ (ref_le_inLen_of_holds h))

/-- R113: the copy starts `d + 1` bytes back, inside the output. -/
theorem step_ref_inside {s : State} {b1 b2 b3 : Byte} (ht : s.engineTurn = true) (hx : s.expects .ref)
    (h : s.holds s.inPtr.toNat ([b1, b2, b3].take (refSize b1))) (hd : backOf (distField b1 b2) ≤ s.outPtr.toNat) :
    step s = .next { s.popTurn with
      inPtr := s.inPtr + BitVec.ofNat 32 (refSize b1)
      copySrc := s.outPtr - BitVec.ofNat 32 (backOf (distField b1 b2))
      copyRem := BitVec.ofNat 9 (refLen b1 b3)
      phase := .copy } :=
  (step_ref_complete ht hx h).trans (congrArg _ (if_neg (Nat.not_lt.mpr hd)))

/-- R113, R144: the copy would start before the output. -/
theorem step_ref_before {s : State} {b1 b2 b3 : Byte} (ht : s.engineTurn = true) (hx : s.expects .ref)
    (h : s.holds s.inPtr.toNat ([b1, b2, b3].take (refSize b1))) (hd : s.outPtr.toNat < backOf (distField b1 b2)) :
    step s = .next (raiseError .invalidBackReference
      { s.popTurn with inPtr := s.inPtr + BitVec.ofNat 32 (refSize b1) }) :=
  (step_ref_complete ht hx h).trans (congrArg _ (if_pos hd))

/-- A missing byte ends a back-reference before its fields matter: the bytes that are left are consumed (R114, R115). -/
theorem step_ref_short {s : State} {b1 b2 b3 : Byte} (ht : s.engineTurn = true) (hx : s.expects .ref)
    (h1 : fetchByte s s.inPtr.toNat = .ok b1) (h2 : fetchByte s (s.inPtr.toNat + 1) = .ok b2)
    (h3 : lenNibble b1 = 0#4 → fetchByte s (s.inPtr.toNat + 2) = .ok b3)
    (hge : s.inPtr.toNat ≤ s.inLen.toNat) (hlt : s.inLen.toNat < s.inPtr.toNat + refSize b1) :
    step s = .next (raiseError .truncatedInput { s.popTurn with inPtr := s.inLen }) :=
  (step_ref ht hx h1 h2 h3).trans (consume_short _ s.popTurn _ hge hlt)

/-- R115: the input ends after `k` bytes of the token. Where it ends before the first, the fetch hands over a zero there, which
selects the long form; the step is the same. -/
theorem step_ref_cut {s : State} {b1 b2 b3 : Byte} {k : Nat} (ht : s.engineTurn = true) (hx : s.expects .ref)
    (hk : k < refSize b1) (h : s.holds s.inPtr.toNat ([b1, b2, b3].take k)) (hend : s.inPtr.toNat + k = s.inLen.toNat) :
    step s = .next (raiseError .truncatedInput { s.popTurn with inPtr := s.inLen }) := by
  have past {j : Nat} (hj : k ≤ j) : fetchByte s (s.inPtr.toNat + j) = .ok 0x00#8 := fetchByte_past (by omega)
  have hk3 : k < 3 := hk.trans_le (refSize_le b1)
  interval_cases k
  · have hz := two_le_refSize 0x00#8
    exact step_ref_short ht hx (past le_rfl) (past (by decide)) (fun _ => past (by decide)) (by omega) (by omega)
  · exact step_ref_short ht hx (h.fetchByte_eq (k := 0) rfl) (past le_rfl) (fun _ => past (by decide)) (by omega) (by omega)
  · exact step_ref_short ht hx (h.fetchByte_eq (k := 0) rfl) (h.fetchByte_eq (k := 1) rfl) (fun _ => past le_rfl) (by omega)
      (by omega)

/-! ### The registers of a complete back-reference, as numbers -/

/-- A cursor that stays within a 32-bit bound moves on without wrapping (R57). -/
theorem toNat_add_ofNat {w b : Word} {k : Nat} (h : w.toNat + k ≤ b.toNat) :
    (w + BitVec.ofNat 32 k).toNat = w.toNat + k := by
  have := b.isLt
  rw [BitVec.toNat_add, BitVec.toNat_ofNat]
  omega

/-- The counter of a copy has room for every length (R34, R76). -/
theorem copyRem_refLen_toNat (b1 b3 : Byte) : (BitVec.ofNat 9 (refLen b1 b3)).toNat = refLen b1 b3 := by
  have := refLen_le b1 b3
  rw [BitVec.toNat_ofNat]
  omega

/-- Settles O22: the numbers of the statement are the decoder's fields; a complete token is consumed and the copy set-up
decides by the distance, and a cut one stops before it. -/
theorem backReferenceStepFollowsTheBytes : Obligations.BackReferenceStepFollowsTheBytes := by
  intro s b1 b2 b3 d size len ht hx hd hsize hlen
  rw [← refSize_eq] at hsize
  rw [← refLen_eq] at hlen
  have hback : d + 1 = backOf (distField b1 b2) := by rw [hd, backOf, distField_toNat]
  subst hsize hlen
  rw [hback]
  refine ⟨?inside, ?before, ?cut⟩
  case inside =>
    intro h hle
    exact ⟨_, step_ref_inside ht hx h hle, rfl, toNat_add_ofNat (ref_le_inLen_of_holds h), copySource_toNat hle,
      copyRem_refLen_toNat b1 b3⟩
  case before =>
    intro h hlt
    exact ⟨_, step_ref_before ht hx h hlt, rfl, toNat_add_ofNat (ref_le_inLen_of_holds h)⟩
  case cut =>
    intro k hk h hend
    exact step_ref_cut ht hx hk h hend

end Sys2Proof.Machine
end

section
/-!
PROOFS. Output bytes: OUT and HIST take each byte together (R53, R122). What an output byte keeps of the invariant, and that
no other step but START and a hardware reset touches either space.
-/

namespace Sys2Proof.Machine

/-! ### An output byte and the invariant -/

/-- OUT stays written exactly below the cursor (R27, R37). -/
theorem State.Inv.putByte_out_written {s : State} (hi : s.Inv) (hlt : s.outPtr.toNat < s.outLen.toNat) (v : Byte) (i : Nat) :
    (outByte (putByte v s) i).isSome = true ↔ i < (putByte v s).outPtr.toNat := by
  rw [outByte_putByte, putByte_outPtr, toNat_add_one hlt (word_le _)]
  split
  case isTrue h => simp [← h]
  case isFalse h =>
    rw [hi.out_written]
    omega

/-- HIST stays the last 4096 output bytes: two indexes less than 4096 apart have different slots (R35, R123). -/
theorem State.Inv.putByte_hist_agrees {s : State} (hi : s.Inv) (hlt : s.outPtr.toNat < s.outLen.toNat) (v : Byte) {i : Nat}
    (h : i < (putByte v s).outPtr.toNat) (hnear : (putByte v s).outPtr.toNat ≤ i + histSize) :
    outByte (putByte v s) i = some (histRead (putByte v s) (histSlot i)) := by
  rw [putByte_outPtr, toNat_add_one hlt (word_le _)] at h hnear
  rw [outByte_putByte, histRead_putByte]
  by_cases hlast : s.outPtr.toNat = i
  · rw [if_pos hlast, if_pos (congrArg histSlot hlast)]
  · have hslot : histSlot s.outPtr.toNat ≠ histSlot i := by
      simp only [histSlot, histSize] at hnear ⊢
      omega
    rw [if_neg hlast, if_neg hslot]
    exact hi.hist_agrees i (by omega) (by omega)

/-! ### What a step does to OUT and HIST -/

/-- Every byte of OUT and HIST reads as before. -/
def OutputKept (s t : State) : Prop :=
  (∀ j, histRead t j = histRead s j) ∧ ∀ i, outByte t i = outByte s i

/-- One byte went to OUT and to HIST at the output cursor, which moved on (R53, R122). -/
def OutputWritten (s t : State) : Prop :=
  ∃ v, (∀ i, outByte t i = if i = s.outPtr.toNat then some v else outByte s i) ∧
    (∀ j, histRead t j = if j = s.outPtr.toNat % 4096 then v else histRead s j) ∧ t.outPtr = s.outPtr + 1#32

/-- The output was taken away by START, which leaves HIST alone (R131). -/
def OutputCleared (s t : State) : Prop :=
  (∀ j, histRead t j = histRead s j) ∧ (∀ i, outByte t i = none) ∧ t.phase = .hdr

/-- A step that keeps the two spaces as data keeps every byte. -/
theorem OutputKept.of_eq {s t : State} (hout : t.outMem = s.outMem) (hhist : t.hist = s.hist)
    (hseed : t.histSeed = s.histSeed) : OutputKept s t := by
  simp [OutputKept, histRead, outByte, hout, hhist, hseed]

/-- The two spaces and the cursor are all that `OutputWritten` looks at, so the rest of a step does not matter to it. -/
theorem OutputWritten.of_putByte {s t : State} {v : Byte} (hout : t.outMem = (putByte v s).outMem)
    (hhist : t.hist = (putByte v s).hist) (hseed : t.histSeed = s.histSeed) (hptr : t.outPtr = s.outPtr + 1#32) :
    OutputWritten s t := by
  refine ⟨v, fun i => ?out, fun j => ?hist, hptr⟩
  case out =>
    calc outByte t i = outByte (putByte v s) i := by rw [outByte, outByte, hout]
      _ = _ := (outByte_putByte v s i).trans (if_congr eq_comm rfl rfl)
  case hist =>
    calc histRead t j = histRead (putByte v s) j := by rw [histRead, histRead, hhist, hseed, putByte_histSeed]
      _ = _ := (histRead_putByte v s j).trans (if_congr eq_comm rfl rfl)

theorem outputCleared_startDecode (s : State) : OutputCleared s (startDecode s) := ⟨fun _ => rfl, fun _ => rfl, rfl⟩

/-- No header outcome touches OUT or HIST (R90). -/
theorem execHdr_outputKept {m : Magic} {n : Word} {s t : State} (h : execHdr m n s = .next t) : OutputKept s t := by
  obtain ⟨-, h⟩ := execHdr_next h
  rcases h with ⟨-, rfl⟩ | ⟨-, -, rfl⟩ | ⟨-, -, -, rfl⟩ | ⟨-, -, -, rfl⟩ | ⟨-, -, -, rfl⟩ <;> exact .of_eq rfl rfl rfl

theorem execCtrl_outputKept {c : Byte} {s t : State} (h : execCtrl c s = .next t) : OutputKept s t := by
  obtain ⟨-, -, -, ⟨-, rfl⟩ | ⟨-, rfl⟩⟩ := execCtrl_next h <;> exact .of_eq rfl rfl rfl

/-- A back-reference only sets the copy up (R113). -/
theorem RefOutcome.outputKept {k len : Nat} {d : BitVec 12} {s t : State} (h : RefOutcome k len d s t) :
    OutputKept s t := by
  rcases h with ⟨-, -, rfl⟩ | ⟨-, -, rfl⟩ | ⟨_, -, -, -, rfl⟩ <;> exact .of_eq rfl rfl rfl

theorem execLit_output {v : Byte} {s t : State} (h : execLit v s = .next t) : OutputKept s t ∨ OutputWritten s t := by
  obtain ⟨-, -, ⟨-, -, rfl⟩ | ⟨-, rfl⟩⟩ := execLit_next h
  · exact .inr (.of_putByte (v := v) rfl rfl rfl rfl)
  · exact .inl (.of_eq rfl rfl rfl)

theorem execCopy_output {s t : State} (h : execCopy s = .next t) : OutputKept s t ∨ OutputWritten s t := by
  obtain ⟨-, ⟨-, rfl⟩ | ⟨-, -, -, rfl⟩⟩ := execCopy_next h
  · exact .inl (.of_eq rfl rfl rfl)
  · exact .inr (.of_putByte (v := histRead s (histSlot s.copySrc.toNat)) rfl rfl rfl rfl)

/-- Only a literal and a copy write output (R53). -/
theorem engineStep_output {s t : State} (h : engineStep s = .next t) : OutputKept s t ∨ OutputWritten s t := by
  rcases engineStep_next h with ⟨-, rfl⟩ | ⟨-, m, n, h⟩ | ⟨-, -, rfl⟩ | ⟨-, -, -, c, h⟩ | ⟨-, -, -, rfl⟩ |
    ⟨-, -, v, h⟩ | ⟨-, -, n, d, h⟩ | ⟨-, -, d, e, h⟩ | ⟨-, h⟩
  · exact .inl (.of_eq rfl rfl rfl)
  · exact .inl (execHdr_outputKept h)
  · exact .inl (.of_eq rfl rfl rfl)
  · exact .inl (execCtrl_outputKept h)
  · exact .inl (.of_eq rfl rfl rfl)
  · exact execLit_output h
  · obtain ⟨-, -, -, h⟩ := execBrefs_next h
    exact .inl h.outputKept
  · obtain ⟨-, -, h⟩ := execBrefl_next h
    exact .inl h.outputKept
  · exact execCopy_output h

/-- The host writes neither OUT nor HIST; START takes the output away (R131, R136). -/
theorem hostStep_output {a : HostAccess} {s t : State} (h : hostStep a s = .next t) :
    OutputKept s t ∨ OutputCleared s t := by
  rcases hostStep_next h with ⟨off, h⟩ | ⟨v, -, h⟩ | ⟨v, h⟩ | rfl | ⟨i, b, h⟩ | ⟨i, h⟩
  · obtain ⟨-, rfl⟩ := execRegRead_next h
    exact .inl (.of_eq rfl rfl rfl)
  · obtain ⟨-, -, rfl⟩ | ⟨-, rfl⟩ := execRegWriteCtrl_next h
    · exact .inr (outputCleared_startDecode s)
    · exact .inl (.of_eq rfl rfl rfl)
  · obtain ⟨-, rfl⟩ | ⟨-, rfl⟩ := execRegWriteInLen_next h <;> exact .inl (.of_eq rfl rfl rfl)
  · exact .inl (.of_eq rfl rfl rfl)
  · obtain ⟨-, -, rfl⟩ := execInWrite_next h
    exact .inl (.of_eq rfl rfl rfl)
  · obtain ⟨-, -, b, -, rfl⟩ := execOutRead_next h
    exact .inl (.of_eq rfl rfl rfl)

/-- Taking the turn off the list touches neither space, so a step that is no reset does what its turn does. -/
theorem step_output {s t : State} (h : step s = .next t) (hr : s.turns.head? ≠ some .reset) :
    OutputKept s t ∨ OutputCleared s t ∨ OutputWritten s t := by
  rcases turn_cases s with ht | ⟨a, ts, ht⟩ | ⟨ts, ht⟩
  · rw [step_engine ht] at h
    exact (engineStep_output h).imp_right .inr
  · rw [step_host ht] at h
    exact (hostStep_output h).imp_right .inl
  · exact absurd (congrArg List.head? ht) hr

/-- Settles O44: of the steps of the engine only a literal and a copy touch the two spaces, and both by one `putByte`; of the
host's operations only START does, and it leaves HIST alone. -/
theorem historyIsWrittenWithTheOutput : Obligations.HistoryIsWrittenWithTheOutput := by
  intro s t h hr
  obtain ⟨hhist, hout⟩ | ⟨hhist, hclear⟩ | hw := step_output h hr
  · exact .inl ⟨hhist, .inl hout⟩
  · exact .inl ⟨hhist, .inr hclear⟩
  · exact .inr hw

end Sys2Proof.Machine
end

section
/-!
PROOFS. Copy unit (43_copy.md): what one COPY step answers (R120), that it keeps the invariant, and what the first `k` steps
of a copy have done (R121, R124).
-/

namespace Sys2Proof.Machine

/-! ### One COPY step -/

/-- R120, R121: nothing left to copy, or no room below `N`. -/
theorem execCopy_exit {s : State} (hp : s.phase = .copy) (h : s.copyRem = 0#9 ∨ s.outPtr = s.outLen) :
    execCopy s = .next (copyExit s) := (selected_of _ hp).trans (if_pos h)

/-- R120: one byte is moved. -/
theorem execCopy_byte {s : State} (hp : s.phase = .copy) (hr : s.copyRem ≠ 0#9) (ho : s.outPtr ≠ s.outLen)
    (hcap : s.outPtr.toNat < s.cfg.outCap) : execCopy s = .next (copyByte s) := by
  rw [execCopy, selected_of _ hp, if_neg (not_or_intro hr ho), withRoom_of_lt hcap]

/-- A cursor at most `N` that is not `N` is below it. -/
theorem toNat_lt_of_le_of_ne {a b : Word} (h : a.toNat ≤ b.toNat) (hne : a ≠ b) : a.toNat < b.toNat :=
  h.lt_of_ne fun e => hne (BitVec.eq_of_toNat_eq e)

/-- Settles O25: the two tests of COPY choose between the byte and the exit; a cursor below `N` has room. -/
theorem copyStepMovesOneByteOrExits : Obligations.CopyStepMovesOneByteOrExits := by
  intro s hp
  refine ⟨?byte, execCopy_exit hp⟩
  case byte =>
    intro hr ho hle hcap
    exact execCopy_byte hp hr ho ((toNat_lt_of_le_of_ne hle ho).trans_le hcap)

/-! ### One byte of a copy, in a state of the invariant -/

/-- The byte a copy step writes at the output cursor. -/
theorem outByte_copyByte (s : State) (i : Nat) : outByte (copyByte s) i =
    if s.outPtr.toNat = i then some (histRead s (histSlot s.copySrc.toNat)) else outByte s i :=
  outByte_putByte _ _ _

/-- The byte a copy step reads from HIST is the output byte at its source (R123). -/
theorem State.Inv.outByte_copySrc {s : State} (hi : s.Inv) (hp : s.phase = .copy) :
    outByte s s.copySrc.toNat = some (histRead s (histSlot s.copySrc.toNat)) := by
  obtain ⟨hlt, hnear⟩ := hi.copy_source hp
  exact hi.hist_agrees _ hlt hnear

/-- A copy that is not at `N` is below it, and so inside the output memory (R94). -/
theorem State.Inv.copy_room {s : State} (hi : s.Inv) (hp : s.phase = .copy) (ho : s.outPtr ≠ s.outLen) :
    s.outPtr.toNat < s.outLen.toNat ∧ s.outPtr.toNat < s.cfg.outCap := by
  obtain ⟨hcap, -⟩ := hi.payload (.inr (.inr hp))
  have hlt := toNat_lt_of_le_of_ne hi.out_range ho
  exact ⟨hlt, hlt.trans_le hcap⟩

theorem copyByte_outPtr_toNat {s : State} (hlt : s.outPtr.toNat < s.outLen.toNat) :
    (copyByte s).outPtr.toNat = s.outPtr.toNat + 1 := toNat_add_one hlt (word_le _)

/-- The source stays behind the output cursor, so it does not wrap either. -/
theorem State.Inv.copyByte_copySrc_toNat {s : State} (hi : s.Inv) (hp : s.phase = .copy) :
    (copyByte s).copySrc.toNat = s.copySrc.toNat + 1 := toNat_add_one (hi.copy_source hp).1 (word_le _)

theorem copyByte_copyRem_toNat {s : State} (hr : s.copyRem ≠ 0#9) : (copyByte s).copyRem.toNat = s.copyRem.toNat - 1 := by
  have hpos : s.copyRem.toNat ≠ 0 := fun h => hr (BitVec.eq_of_toNat_eq h)
  rw [copyByte_copyRem, BitVec.toNat_sub_of_le (by rw [BitVec.le_def, BitVec.toNat_ofNat]; omega)]
  rfl

/-- A byte of a copy keeps the invariant. -/
theorem copyByte_inv {s : State} (hi : s.Inv) (hp : s.phase = .copy) (hr : s.copyRem ≠ 0#9)
    (ho : s.outPtr ≠ s.outLen) : (copyByte s).Inv := by
  obtain ⟨hlt, -⟩ := hi.copy_room hp ho
  have hptr := copyByte_outPtr_toNat hlt
  have hsrc := hi.copyByte_copySrc_toNat hp
  have hrem := copyByte_copyRem_toNat hr
  have hbusy : s.status = 1#32 := by simpa [State.statusLegal, hp] using hi.status_legal
  exact {
    in_wf := hi.in_wf
    out_wf := Memory.write_wf hi.out_wf _ _
    hist_wf := Memory.write_wf hi.hist_wf _ _
    in_size := hi.in_size
    hist_size := fun c hc => (Memory.mem_write hc).elim (fun h => h ▸ histSlot_lt _) (hi.hist_size c)
    out_written := hi.putByte_out_written hlt _
    status_legal := hi.status_legal
    done_full := fun h => absurd (hbusy.symm.trans h) (by decide)
    mask_onehot := hi.mask_onehot
    rem_range := by have := hi.rem_range; omega
    out_range := by rw [hptr]; exact hlt
    in_range := hi.in_range
    hdr_fresh := fun h => by simp [hp] at h
    payload := hi.payload
    tok_room := fun h => by simp [hp] at h
    copy_source := fun _ => by have := hi.copy_source hp; omega
    hist_agrees := fun _ => hi.putByte_hist_agrees hlt _ }

/-! ### The first `k` steps of a copy -/

/-- A run goes on with a step from the state that it answers. -/
theorem run_succ_of_run {k : Nat} {s t u : State} (h : run k s = .next t) (hstep : step t = .next u) :
    run (k + 1) s = .next u := by
  induction k generalizing s with
  | zero =>
    cases h
    exact run_succ_of_step 0 hstep
  | succ k ih =>
    rw [run] at h ⊢
    cases hs : step s with
    | next s' => rw [hs] at h; exact ih h
    | fault r => rw [hs] at h; cases h
    | refused r => rw [hs] at h; cases h

/-- With no turn of the outside left, a step in COPY is the copy unit's. -/
theorem step_copy {s : State} (hs : s.turns = []) (hp : s.phase = .copy) : step s = execCopy s := by
  have hpop : s.popTurn = s := by rw [State.popTurn, hs, List.tail_nil, ← hs]
  rw [step_engine (by simp [State.engineTurn, hs]), hpop]
  simp [engineStep, nextMove, hp, decode, exec]

/-- What `k` bytes of a copy have made of the state `s` in which it began (R120, R124): the bytes written are those from the
source to the cursor, over and over. -/
structure Copied (k : Nat) (s t : State) : Prop where
  inv : t.Inv
  turns : t.turns = []
  phase : t.phase = .copy
  inPtr : t.inPtr = s.inPtr
  outLen : t.outLen = s.outLen
  outPtr : t.outPtr.toNat = s.outPtr.toNat + k
  copySrc : t.copySrc.toNat = s.copySrc.toNat + k
  copyRem : t.copyRem.toNat = s.copyRem.toNat - k
  kept : ∀ i, i < s.outPtr.toNat → outByte t i = outByte s i
  periodic : ∀ j, j < k →
    outByte t (s.outPtr.toNat + j) = outByte s (s.copySrc.toNat + j % (s.outPtr.toNat - s.copySrc.toNat))

theorem Copied.zero {s : State} (hi : s.Inv) (hs : s.turns = []) (hp : s.phase = .copy) : Copied 0 s s where
  inv := hi
  turns := hs
  phase := hp
  inPtr := rfl
  outLen := rfl
  outPtr := rfl
  copySrc := rfl
  copyRem := rfl
  kept := fun _ _ => rfl
  periodic := fun _ h => absurd h (Nat.not_lt_zero _)

/-- The byte that comes after `k` bytes of a copy. The source is then among the bytes before the copy, or, once the copy has
caught up with its own beginning, among those it wrote one period ago (R124). -/
theorem Copied.outByte_copySrc {k : Nat} {s t : State} (hc : Copied k s t)
    (hsrc : s.copySrc.toNat < s.outPtr.toNat) : outByte t t.copySrc.toNat =
      outByte s (s.copySrc.toNat + k % (s.outPtr.toNat - s.copySrc.toNat)) := by
  rw [hc.copySrc]
  by_cases hk : k < s.outPtr.toNat - s.copySrc.toNat
  · rw [Nat.mod_eq_of_lt hk]
    exact hc.kept _ (by omega)
  · have hback : s.copySrc.toNat + k = s.outPtr.toNat + (k - (s.outPtr.toNat - s.copySrc.toNat)) := by omega
    rw [hback, hc.periodic _ (by omega), Nat.mod_eq_sub_mod (Nat.le_of_not_lt hk)]

/-- One byte more. -/
theorem Copied.succ {k : Nat} {s t : State} (hc : Copied k s t) (hsrc : s.copySrc.toNat < s.outPtr.toNat)
    (hr : t.copyRem ≠ 0#9) (ho : t.outPtr ≠ t.outLen) : Copied (k + 1) s (copyByte t) := by
  obtain ⟨hlt, -⟩ := hc.inv.copy_room hc.phase ho
  have hptr := copyByte_outPtr_toNat hlt
  have hcopySrc := hc.inv.copyByte_copySrc_toNat hc.phase
  have hrem := copyByte_copyRem_toNat hr
  have old {i : Nat} (h : i < s.outPtr.toNat + k) : outByte (copyByte t) i = outByte t i := by
    rw [outByte_copyByte, if_neg (by rw [hc.outPtr]; omega)]
  have new : outByte (copyByte t) (s.outPtr.toNat + k) =
      outByte s (s.copySrc.toNat + k % (s.outPtr.toNat - s.copySrc.toNat)) := by
    rw [outByte_copyByte, if_pos hc.outPtr, ← hc.inv.outByte_copySrc hc.phase, hc.outByte_copySrc hsrc]
  exact {
    inv := copyByte_inv hc.inv hc.phase hr ho
    turns := hc.turns
    phase := hc.phase
    inPtr := hc.inPtr
    outLen := hc.outLen
    outPtr := by rw [hptr, hc.outPtr, Nat.add_assoc]
    copySrc := by rw [hcopySrc, hc.copySrc, Nat.add_assoc]
    copyRem := by rw [hrem, hc.copyRem, Nat.sub_sub]
    kept := fun i h => (old (by omega)).trans (hc.kept i h)
    periodic := fun j hj => by
      rcases Nat.lt_succ_iff_lt_or_eq.mp hj with hj | rfl
      · exact (old (by omega)).trans (hc.periodic j hj)
      · exact new }

/-- As long as bytes are left and output is missing, each step of the engine running alone copies one byte. -/
theorem exists_run_copied {s : State} {k : Nat} (hi : s.Inv) (hs : s.turns = []) (hp : s.phase = .copy)
    (hrem : k ≤ s.copyRem.toNat) (hlen : k ≤ s.outLen.toNat - s.outPtr.toNat) :
    ∃ t, run k s = .next t ∧ Copied k s t := by
  induction k with
  | zero => exact ⟨s, rfl, .zero hi hs hp⟩
  | succ k ih =>
    obtain ⟨t, hrun, hc⟩ := ih (by omega) (by omega)
    have hr : t.copyRem ≠ 0#9 := fun h => by
      have hleft := hc.copyRem
      rw [h, BitVec.toNat_zero] at hleft
      omega
    have ho : t.outPtr ≠ t.outLen := fun h => by
      have hptr := hc.outPtr
      rw [h, hc.outLen] at hptr
      omega
    obtain ⟨-, hcap⟩ := hc.inv.copy_room hc.phase ho
    have hstep := (step_copy hc.turns hc.phase).trans (execCopy_byte hc.phase hr ho hcap)
    exact ⟨copyByte t, run_succ_of_run hrun hstep, hc.succ (hi.copy_source hp).1 hr ho⟩

/-- Settles O28: the period is the distance of the source from the cursor, and every byte in it was written. -/
theorem overlappingCopyIsPeriodic : Obligations.OverlappingCopyIsPeriodic := by
  intro s k hi hs hp hrem hlen
  obtain ⟨t, hrun, hc⟩ := exists_run_copied hi hs hp hrem hlen
  obtain ⟨hsrc, -⟩ := hi.copy_source hp
  refine ⟨t, hrun, hc.outPtr, fun j hj => ?_⟩
  have hmod : j % (s.outPtr.toNat - s.copySrc.toNat) < s.outPtr.toNat - s.copySrc.toNat := Nat.mod_lt _ (by omega)
  obtain ⟨b, hb⟩ := Option.isSome_iff_exists.mp ((hi.out_written _).mpr
    (show s.copySrc.toNat + j % (s.outPtr.toNat - s.copySrc.toNat) < s.outPtr.toNat by omega))
  exact ⟨b, (hc.periodic j hj).trans hb, hb⟩

/-! ### The end of a copy -/

/-- After as many bytes as fit, the length is used up or the output is complete (R121). -/
theorem Copied.exhausted {s t : State} (hi : s.Inv)
    (hc : Copied (min s.copyRem.toNat (s.outLen.toNat - s.outPtr.toNat)) s t) :
    t.copyRem = 0#9 ∨ t.outPtr = t.outLen := by
  have hleft := hc.copyRem
  have hptr := hc.outPtr
  have hrange := hi.out_range
  rcases Nat.le_total s.copyRem.toNat (s.outLen.toNat - s.outPtr.toNat) with hle | hle
  · left
    apply BitVec.eq_of_toNat_eq
    rw [hleft, Nat.min_eq_left hle, Nat.sub_self]
    rfl
  · right
    apply BitVec.eq_of_toNat_eq
    rw [hptr, hc.outLen, Nat.min_eq_right hle]
    omega

/-- Settles O27: the bytes that fit are copied one a step, the next step is the exit, and where they filled the output the WIN
step after it is the success stop. -/
theorem copyIsClampedAtTheDecodedLength : Obligations.CopyIsClampedAtTheDecodedLength := by
  intro s hi hs hp
  obtain ⟨t, hrun, hc⟩ := exists_run_copied hi hs hp
    (Nat.min_le_left _ (s.outLen.toNat - s.outPtr.toNat)) (Nat.min_le_right _ _)
  have hexit := (step_copy hc.turns hc.phase).trans (execCopy_exit hc.phase (hc.exhausted hi))
  refine ⟨copyExit t, run_succ_of_run hrun hexit, rfl, rfl, hc.inPtr, hc.outLen, hc.outPtr, ?clamped, ?finished⟩
  case clamped =>
    intro i hN
    have hrange := hc.inv.out_range
    rw [hc.outLen] at hrange
    rw [← Option.not_isSome_iff_eq_none]
    exact fun h => absurd ((hc.inv.out_written i).mp h) (by omega)
  case finished =>
    intro hfull
    have hptr : t.outPtr = s.outLen := by
      apply BitVec.eq_of_toNat_eq
      have hrange := hi.out_range
      rw [hc.outPtr, Nat.min_eq_right hfull]
      omega
    refine ⟨finish (copyExit t).popTurn, step_win_finish ?_ rfl (hptr.trans hc.outLen.symm), rfl, rfl, hptr⟩
    simp [State.engineTurn, hc.turns]

end Sys2Proof.Machine
end

section
/-!
PROOFS. Host operations (44_host.md): what each register access, InWrite and OutRead answers, one lemma per branch of its
meaning, and that the output is written below `N` after DONE (R27, R135).
-/

namespace Sys2Proof

/-! ### Register offsets -/

/-- The low two bits of an offset are its remainder by 4 (R55). -/
theorem offAligned_iff (off : BitVec 8) : offAligned off = true ↔ off.toNat % 4 = 0 := by
  have low : (off &&& 0x03#8).toNat = off.toNat % 4 :=
    (BitVec.toNat_and off 0x03#8).trans (Nat.and_two_pow_sub_one_eq_mod off.toNat 2)
  rw [offAligned, beq_iff_eq, ← BitVec.toNat_inj, low]
  rfl

theorem offOther_of_aligned {off : BitVec 8} (h : off.toNat % 4 = 0) (hctrl : off ≠ 0x00#8) (hlen : off ≠ 0x08#8) :
    offOther off = true := by
  simp [offOther, (offAligned_iff off).mpr h, hctrl, hlen]

end Sys2Proof

namespace Sys2Proof.Machine

/-! ### OutRead -/

/-- After DONE the cursor is at `N`, and the engine wrote every byte below the cursor (R27, R37). -/
theorem State.Inv.exists_outByte_of_done {s : State} {i : Nat} (hi : s.Inv) (hd : s.status = statusDone)
    (hN : i < s.outLen.toNat) : ∃ b, outByte s i = some b := by
  have below : i < s.outPtr.toNat := by rwa [hi.done_full hd]
  exact Option.isSome_iff_exists.mp ((hi.out_written i).mpr below)

theorem execOutRead_valid {i : Word} {b : Byte} {s : State} (hd : s.status = statusDone) (hN : i.toNat < s.outLen.toNat)
    (hb : outByte s i.toNat = some b) : execOutRead i s = .next { s with reply := .byte b } := by
  rw [execOutRead, if_pos ⟨hd, hN⟩, hb]

theorem execOutRead_notValid {i : Word} {s : State} (h : ¬ (s.status = statusDone ∧ i.toNat < s.outLen.toNat)) :
    execOutRead i s = .fault (.outputNotValid i.toNat) := if_neg h

/-- Settles O34: a byte below `N` was written once STATUS is DONE, so the read finds it; otherwise the test fails. -/
theorem outputReadsAreValidOnlyAfterDone : Obligations.OutputReadsAreValidOnlyAfterDone := by
  intro s i hi
  refine ⟨?valid, execOutRead_notValid⟩
  case valid =>
    intro hd hN
    obtain ⟨b, hb⟩ := hi.exists_outByte_of_done hd hN
    exact ⟨b, hb, execOutRead_valid hd hN hb⟩

/-! ### RegRead -/

/-- The word a register holds (R22 to R29): CTRL and the reserved offsets hold nothing and read 0. -/
def registerWord (off : BitVec 8) (s : State) : Word :=
  if off = 0x04#8 then s.status
  else if off = 0x08#8 then s.inLen
  else if off = 0x0C#8 then s.outLen
  else if off = 0x10#8 then s.inPtr
  else if off = 0x14#8 then s.outPtr
  else 0#32

theorem cursorRead_idle {s : State} (hp : s.phase = .idle) (v : Word) : cursorRead s v = (v, 0) := if_pos hp

/-- Where no free value is drawn, a read returns the register: while idle, and at every offset but the three cursors'. -/
theorem regValue_exact {off : BitVec 8} {s : State}
    (h : s.phase = .idle ∨ off ≠ 0x0C#8 ∧ off ≠ 0x10#8 ∧ off ≠ 0x14#8) :
    regValue off s = (registerWord off s, 0) := by
  by_cases hctrl : off = 0x00#8
  · subst hctrl
    rfl
  rw [regValue, if_neg hctrl, registerWord]
  rcases h with hp | ⟨houtLen, hinPtr, houtPtr⟩
  · simp only [cursorRead_idle hp]
    split_ifs <;> rfl
  · simp only [if_neg houtLen, if_neg hinPtr, if_neg houtPtr]
    split_ifs <;> rfl

theorem execRegRead_aligned {off : BitVec 8} {s : State} (h : off.toNat % 4 = 0) : execRegRead off s =
    .next { s with reply := .word (regValue off s).1, draws := s.draws + (regValue off s).2 } :=
  if_pos ((offAligned_iff off).mpr h)

theorem execRegRead_misaligned {off : BitVec 8} {s : State} (h : off.toNat % 4 ≠ 0) :
    execRegRead off s = .refused .illFormed := if_neg (mt (offAligned_iff off).mp h)

theorem execRegRead_exact {off : BitVec 8} {s : State} (ha : off.toNat % 4 = 0)
    (h : s.phase = .idle ∨ off ≠ 0x0C#8 ∧ off ≠ 0x10#8 ∧ off ≠ 0x14#8) :
    execRegRead off s = .next { s with reply := .word (registerWord off s) } := by
  rw [execRegRead_aligned ha, regValue_exact h]
  rfl

/-- Settles O29: alignment decides whether the read is answered, and the phase and the offset whether the answer is the
register. -/
theorem registerReadsReturnTheRegister : Obligations.RegisterReadsReturnTheRegister := by
  intro s off
  refine ⟨execRegRead_exact, ?busy, fun h => ⟨_, execRegRead_misaligned h⟩⟩
  case busy =>
    intro _ hoff
    have aligned : off.toNat % 4 = 0 := by rcases hoff with rfl | rfl | rfl <;> rfl
    exact ⟨_, _, execRegRead_aligned aligned⟩

/-! ### RegWrite -/

theorem execRegWriteCtrl_start {v : Word} {s : State} (hv : v.getLsbD 0 = true) (hp : s.phase = .idle) :
    execRegWriteCtrl v s = .next (startDecode s) := if_pos ⟨hv, hp⟩

theorem execRegWriteCtrl_ignored {v : Word} {s : State} (h : v.getLsbD 0 = false ∨ s.phase ≠ .idle) :
    execRegWriteCtrl v s = .next s := by
  refine if_neg fun ⟨hv, hp⟩ => ?_
  rcases h with hv' | hp'
  · exact absurd (hv.symm.trans hv') (by decide)
  · exact hp' hp

/-- Settles O30: START is `startDecode`, which leaves no byte of OUT written (R131). -/
theorem startBeginsAFreshDecode : Obligations.StartBeginsAFreshDecode := by
  intro s v
  refine ⟨?start, execRegWriteCtrl_ignored⟩
  case start =>
    intro hv hp
    obtain ⟨-, written, -⟩ := outputCleared_startDecode s
    exact ⟨startDecode s, execRegWriteCtrl_start hv hp, rfl, written⟩

theorem execRegWriteInLen_idle {v : Word} {s : State} (hp : s.phase = .idle) :
    execRegWriteInLen v s = .next { s with inLen := v } := if_pos hp

theorem execRegWriteInLen_busy {v : Word} {s : State} (hp : s.phase ≠ .idle) : execRegWriteInLen v s = .next s := if_neg hp

/-- Settles O31: the phase alone decides (R132). -/
theorem inputLengthIsWrittenOnlyWhileIdle : Obligations.InputLengthIsWrittenOnlyWhileIdle :=
  fun _ _ => ⟨execRegWriteInLen_idle, execRegWriteInLen_busy⟩

theorem execRegWriteOther_other {off : BitVec 8} (v : Word) (s : State) (h : offOther off = true) :
    execRegWriteOther off v s = .next s := if_pos h

/-- Settles O32: these are the offsets of RegWrite.other, whose meaning does not look at the phase (R133). -/
theorem otherRegisterWritesDoNothing : Obligations.OtherRegisterWritesDoNothing :=
  fun s _ v ha hctrl hlen => execRegWriteOther_other v s (offOther_of_aligned ha hctrl hlen)

/-! ### InWrite -/

theorem execInWrite_idle {i : Word} {b : Byte} {s : State} (hp : s.phase = .idle) (hi : i.toNat < s.cfg.inCap) :
    execInWrite i b s = .next { s with inMem := Memory.write s.inMem i.toNat b } := by
  rw [execInWrite, if_neg (not_not_intro hp), if_pos hi]

theorem execInWrite_busy {i : Word} {b : Byte} {s : State} (hp : s.phase ≠ .idle) :
    execInWrite i b s = .refused .inputWriteWhileBusy := if_pos hp

theorem execInWrite_past {i : Word} {b : Byte} {s : State} (hp : s.phase = .idle) (hi : s.cfg.inCap ≤ i.toNat) :
    execInWrite i b s = .refused (.inputIndexOutOfRange i.toNat) := by
  rw [execInWrite, if_neg (not_not_intro hp), if_neg (Nat.not_lt.mpr hi)]

theorem inByte_write_same {i : Nat} {s : State} (b : Byte) (h : i < s.cfg.inCap) :
    inByte { s with inMem := Memory.write s.inMem i b } i = some b :=
  (if_pos h).trans (Memory.read_write_same s.inMem i b)

theorem inByte_write_other {i j : Nat} (s : State) (b : Byte) (h : j ≠ i) :
    inByte { s with inMem := Memory.write s.inMem i b } j = inByte s j := by
  simp only [inByte, Memory.read_write_other s.inMem b h.symm]

/-- Settles O33: the phase is tested before the index, and the write reaches one byte of IN (R134). -/
theorem inputWritesLandWhileIdle : Obligations.InputWritesLandWhileIdle := by
  intro s i b
  refine ⟨?lands, execInWrite_busy, execInWrite_past⟩
  case lands =>
    intro hp hi
    exact ⟨_, execInWrite_idle hp hi, rfl, inByte_write_same b hi, fun _ hj => inByte_write_other s b hj⟩

end Sys2Proof.Machine
end

section
/-!
PROOFS. Decode errors (60_exceptions.md): the registers that a wrong magic (R142), a truncated input (R143) and a header over
the capacity (R145) leave behind, and where CapacityExceeded can come from.
-/

namespace Sys2Proof.Machine

/-! ### The error stops -/

/-- Settles O10: the HDR step answers InvalidMagic, and in HDR the three registers still hold the zeros of START. -/
theorem wrongMagicFailsWhateverFollows : Obligations.WrongMagicFailsWhateverFollows := by
  intro s m hi ht hp h hm
  obtain ⟨hin, hout, hlen, -⟩ := hi.hdr_fresh hp
  exact ⟨_, step_hdr_wrong_magic ht hp h hm, rfl, rfl, hin, hout, hlen⟩

/-- R110, R143: a literal is needed on the engine's turn and no byte is left. -/
theorem step_lit_past {s : State} (ht : s.engineTurn = true) (hx : s.expects .lit) (h : s.inLen.toNat ≤ s.inPtr.toNat) :
    step s = .next (raiseError .truncatedInput s.popTurn) :=
  (step_of_fetchItem_ok ht hx (fetchBytes_one_past h) rfl).trans (execLit_past (s := s.popTurn) hx h)

/-- R143, HDR-a and HDR-c: too few bytes for the magic, or the right magic and too few bytes for the header. -/
theorem step_hdr_truncated {s : State} (ht : s.engineTurn = true) (hp : s.phase = .hdr)
    (h : s.inLen.toNat < 4 ∨ s.inLen.toNat < 16 ∧ s.holds 0 s.cfg.magic.bytes) :
    step s = .next (raiseError .truncatedInput s.popTurn) := by
  rcases h with hL | ⟨hL, h⟩
  · exact step_hdr_short ht hp hL
  · exact step_hdr_cut ht hp h hL

/-- R143, the sites of the payload that have consumed the whole input: no byte is left of an item. -/
theorem step_payload_past {s : State} (ht : s.engineTurn = true) (hx : s.expects .win ∨ s.expects .lit ∨ s.expects .ref)
    (h : s.inPtr = s.inLen) : step s = .next (raiseError .truncatedInput { s.popTurn with inPtr := s.inLen }) := by
  have hpop : { s.popTurn with inPtr := s.inLen } = s.popTurn := by rw [← h]; rfl
  have hge : s.inLen.toNat ≤ s.inPtr.toNat := (congrArg BitVec.toNat h).ge
  rcases hx with hx | hx | hx
  · rw [hpop]
    exact step_win_past ht hx hge
  · rw [hpop]
    exact step_lit_past ht hx hge
  · exact step_ref_cut (b1 := 0#8) (b2 := 0#8) (b3 := 0#8) (k := 0) ht hx (by decide) (fun _ _ h => by simp at h)
      (congrArg BitVec.toNat h)

/-- Settles O23: the two sites of the header find the registers as START left them; those of the payload stop with the cursor
at `L`, whatever part of the item was there. -/
theorem everyTruncationSiteStops : Obligations.EveryTruncationSiteStops := by
  intro s hi ht
  refine ⟨?header, ?payload⟩
  case header =>
    rintro ⟨hp, h⟩
    obtain ⟨hin, hout, hlen, -⟩ := hi.hdr_fresh hp
    exact ⟨_, step_hdr_truncated ht hp h, rfl, rfl, hin, hout, hlen⟩
  case payload =>
    intro h
    have stop : step s = .next (raiseError .truncatedInput { s.popTurn with inPtr := s.inLen }) := by
      rcases h with ⟨hx, h⟩ | ⟨hx, hend, b, h⟩ | ⟨hx, hend, b, b', hn, h⟩
      · exact step_payload_past ht hx h
      · exact step_ref_cut (b1 := b) (b2 := 0#8) (b3 := 0#8) (k := 1) ht hx (two_le_refSize b) h hend
      · exact step_ref_cut (b1 := b) (b2 := b') (b3 := 0#8) (k := 2) ht hx (by rw [refSize_of_long hn]; decide) h hend
    exact ⟨_, stop, rfl, rfl, rfl, rfl, rfl⟩

/-! ### Where CapacityExceeded comes from -/

/-- What a meaning leaves in STATUS: it stays, START sets BUSY, or an error stop sets its word; that of CapacityExceeded only
where some 32-bit length is above OUT_CAP (R90 d). -/
def StatusOutcome (s t : State) : Prop :=
  t.status = s.status ∨ t.status = statusBusy ∨ (∃ e, e ≠ .capacityExceeded ∧ t.status = statusError e) ∨
    ∃ n : Word, s.cfg.outCap < n.toNat ∧ t.status = statusError .capacityExceeded

theorem StatusOutcome.kept {s t : State} (h : t.status = s.status) : StatusOutcome s t := .inl h

theorem StatusOutcome.error {s t : State} {e : ErrorKind} (he : e ≠ .capacityExceeded) (h : t.status = statusError e) :
    StatusOutcome s t := .inr (.inr (.inl ⟨e, he, h⟩))

theorem RefOutcome.statusOutcome {k len : Nat} {d : BitVec 12} {s t : State} (h : RefOutcome k len d s t) :
    StatusOutcome s t := by
  rcases h with ⟨-, -, rfl⟩ | ⟨-, -, rfl⟩ | ⟨_, -, -, -, rfl⟩
  · exact .error (e := .invalidBackReference) (by decide) rfl
  · exact .kept rfl
  · exact .error (e := .truncatedInput) (by decide) rfl

theorem execHdr_statusOutcome {m : Magic} {n : Word} {s t : State} (h : execHdr m n s = .next t) : StatusOutcome s t := by
  obtain ⟨-, ⟨-, rfl⟩ | ⟨-, -, rfl⟩ | ⟨-, -, -, rfl⟩ | ⟨-, -, hn, rfl⟩ | ⟨-, -, -, rfl⟩⟩ := execHdr_next h
  · exact .error (e := .truncatedInput) (by decide) rfl
  · exact .error (e := .invalidMagic) (by decide) rfl
  · exact .error (e := .truncatedInput) (by decide) rfl
  · exact .inr (.inr (.inr ⟨n, hn, rfl⟩))
  · exact .kept rfl

/-- Of the instructions only HDR can raise CapacityExceeded. -/
theorem exec_statusOutcome {i : Instr} {s t : State} (h : exec i s = .next t) : StatusOutcome s t := by
  cases i with
  | hdr m n => exact execHdr_statusOutcome h
  | ctrl c =>
    obtain ⟨-, -, -, ⟨-, rfl⟩ | ⟨-, rfl⟩⟩ := execCtrl_next h
    · exact .kept rfl
    · exact .error (e := .truncatedInput) (by decide) rfl
  | lit v =>
    obtain ⟨-, -, ⟨-, -, rfl⟩ | ⟨-, rfl⟩⟩ := execLit_next h
    · exact .kept rfl
    · exact .error (e := .truncatedInput) (by decide) rfl
  | brefl d e =>
    obtain ⟨-, -, h⟩ := execBrefl_next h
    exact h.statusOutcome
  | brefs n d =>
    obtain ⟨-, -, -, h⟩ := execBrefs_next h
    exact h.statusOutcome
  | copy => obtain ⟨-, ⟨-, rfl⟩ | ⟨-, -, -, rfl⟩⟩ := execCopy_next h <;> exact .kept rfl
  | regRead off =>
    obtain ⟨-, rfl⟩ := execRegRead_next h
    exact .kept rfl
  | regWriteCtrl v =>
    obtain ⟨-, -, rfl⟩ | ⟨-, rfl⟩ := execRegWriteCtrl_next h
    · exact .inr (.inl rfl)
    · exact .kept rfl
  | regWriteInLen v => obtain ⟨-, rfl⟩ | ⟨-, rfl⟩ := execRegWriteInLen_next h <;> exact .kept rfl
  | regWriteOther off v =>
    obtain ⟨-, rfl⟩ := execRegWriteOther_next (v := v) h
    exact .kept rfl
  | inWrite k b =>
    obtain ⟨-, -, rfl⟩ := execInWrite_next h
    exact .kept rfl
  | outRead k =>
    obtain ⟨-, -, b, -, rfl⟩ := execOutRead_next h
    exact .kept rfl

/-- The word of CapacityExceeded is that of no other error (R141). -/
theorem statusError_ne_capacityExceeded {e : ErrorKind} (he : e ≠ .capacityExceeded) :
    statusError e ≠ statusError .capacityExceeded := by
  cases e
  case capacityExceeded => exact absurd rfl he
  all_goals decide

/-- Settles O12: the header stops with the length stored and the cursors of START; no 32-bit length is above an OUT_CAP of
`2^32-1`, and nothing else sets the word of CapacityExceeded. -/
theorem capacityExceededRecordsTheLength : Obligations.CapacityExceededRecordsTheLength := by
  refine ⟨?records, ?never⟩
  case records =>
    intro s n hi hp hL hn
    obtain ⟨hin, hout, -⟩ := hi.hdr_fresh hp
    exact ⟨_, (execHdr_of_complete hp hL).trans (if_pos hn), rfl, rfl, hin, hout, rfl⟩
  case never =>
    intro s t i hcap hs h
    obtain hk | hb | ⟨e, he, hst⟩ | ⟨n, hn, -⟩ := exec_statusOutcome h
    · rwa [hk]
    · rw [hb]
      decide
    · rw [hst]
      exact statusError_ne_capacityExceeded he
    · exact absurd hn (Nat.not_lt.mpr ((word_le n).trans hcap))

end Sys2Proof.Machine
end

section
/-!
PROOFS. The invariant along a decode: each of the operations that the engine's steps are made of keeps it, and so does every
engine step (R24, R26, R27, R32, R57, R94, R123).
-/

namespace Sys2Proof.Machine

/-! ### The parts that the phase decides -/

/-- R24: STATUS is BUSY while a decode runs. -/
theorem State.Inv.status_busy {s : State} (hi : s.Inv) (hp : s.phase ≠ .idle) : s.status = statusBusy :=
  (if_neg hp).mp hi.status_legal

theorem statusLegal_of_busy {s : State} (hp : s.phase ≠ .idle) (hs : s.status = statusBusy) : s.statusLegal :=
  (if_neg hp).mpr hs

theorem State.inPayload.ne_idle {s : State} (h : s.inPayload) : s.phase ≠ .idle := by
  rcases h with h | h | h <;> simp [h]

theorem State.inPayload.ne_hdr {s : State} (h : s.inPayload) : s.phase ≠ .hdr := by
  rcases h with h | h | h <;> simp [h]

/-! ### The stops -/

theorem statusLegal_raiseError (e : ErrorKind) (s : State) : (raiseError e s).statusLegal := by
  refine (if_pos (raiseError_phase e s)).mpr ?_
  rw [raiseError_status]
  cases e <;> decide

/-- An error stop keeps the invariant, with any length that the output is within (R140, R145). -/
theorem raiseError_inv {s : State} (hi : s.Inv) (e : ErrorKind) {n : Word} (hn : s.outPtr.toNat ≤ n.toNat) :
    (raiseError e { s with outLen := n }).Inv :=
  have hdone : statusError e ≠ statusDone := by cases e <;> decide
  { hi with
    status_legal := statusLegal_raiseError e _
    done_full := fun h => absurd h hdone
    out_range := hn
    in_range := fun h => absurd rfl h
    hdr_fresh := nofun
    payload := fun h => absurd rfl h.ne_idle
    tok_room := nofun
    copy_source := nofun }

/-- The success stop comes at the end of the output (R100). -/
theorem finish_inv {s : State} (hi : s.Inv) (ho : s.outPtr = s.outLen) : (finish s).Inv :=
  { hi with
    status_legal := (if_pos (finish_phase s)).mpr (by rw [finish_status]; decide)
    done_full := fun _ => ho
    in_range := fun h => absurd rfl h
    hdr_fresh := nofun
    payload := fun h => absurd rfl h.ne_idle
    tok_room := nofun
    copy_source := nofun }

/-! ### The header -/

/-- An accepted header leaves nothing written and the cursor at the payload (R90, R94). -/
theorem acceptHeader_inv {s : State} (hi : s.Inv) (hp : s.phase = .hdr) {n : Word} (hL : 16 ≤ s.inLen.toNat)
    (hn : n.toNat ≤ s.cfg.outCap) :
    { s with outLen := n, inPtr := 16#32, outPtr := 0#32, mask := 0x00#8, phase := .win }.Inv := by
  have hbusy := hi.status_busy (by simp [hp])
  obtain ⟨-, hout, -⟩ := hi.hdr_fresh hp
  exact { hi with
    out_written := fun i => by rw [← hout]; exact hi.out_written i
    status_legal := statusLegal_of_busy nofun hbusy
    done_full := fun h => absurd (hbusy.symm.trans h) (by decide)
    mask_onehot := by simp
    out_range := Nat.zero_le _
    in_range := fun _ => hL
    hdr_fresh := nofun
    payload := fun _ => ⟨hn, le_rfl⟩
    tok_room := nofun
    copy_source := nofun
    hist_agrees := fun i h => absurd h (Nat.not_lt_zero i) }

theorem execHdr_inv {m : Magic} {n : Word} {s t : State} (hi : s.Inv) (h : execHdr m n s = .next t) : t.Inv := by
  obtain ⟨hp, ⟨-, rfl⟩ | ⟨-, -, rfl⟩ | ⟨-, -, -, rfl⟩ | ⟨-, -, -, rfl⟩ | ⟨hL, -, hn, rfl⟩⟩ := execHdr_next h
  · exact raiseError_inv hi _ hi.out_range
  · exact raiseError_inv hi _ hi.out_range
  · exact raiseError_inv hi _ hi.out_range
  · obtain ⟨-, hout, -⟩ := hi.hdr_fresh hp
    exact raiseError_inv hi _ (by rw [hout]; exact Nat.zero_le _)
  · exact acceptHeader_inv hi hp hL hn

/-! ### Payload bytes -/

/-- Payload bytes below `L` are consumed (R26, R57). -/
theorem State.Inv.consumed {s : State} (hi : s.Inv) (hs : s.inPayload) {k : Nat} (h : s.inPtr.toNat + k ≤ s.inLen.toNat) :
    { s with inPtr := s.inPtr + BitVec.ofNat 32 k }.Inv := by
  have hq := toNat_add_ofNat h
  obtain ⟨hcap, hpay⟩ := hi.payload hs
  exact { hi with
    in_range := fun _ => hq.trans_le h
    hdr_fresh := fun hp => absurd hp hs.ne_hdr
    payload := fun _ => ⟨hcap, by rw [hq]; omega⟩ }

/-! ### The window -/

/-- The mask moves from one of its values to another (R32). -/
theorem State.Inv.maskNext_onehot {s : State} (hi : s.Inv) :
    maskNext s.mask ∈ [0x00#8, 0x80#8, 0x40#8, 0x20#8, 0x10#8, 0x08#8, 0x04#8, 0x02#8, 0x01#8] := by
  have hm := hi.mask_onehot
  simp only [List.mem_cons, List.not_mem_nil, or_false] at hm
  rcases hm with h | h | h | h | h | h | h | h | h <;> rw [h] <;> decide

/-- A token is selected only while output is missing (R102, R110). -/
theorem selectBit_inv {s : State} (hi : s.Inv) (hp : s.phase = .win) (ho : s.outPtr ≠ s.outLen) : (selectBit s).Inv :=
  have hs : s.inPayload := .inl hp
  { hi with
    status_legal := statusLegal_of_busy nofun (hi.status_busy hs.ne_idle)
    mask_onehot := hi.maskNext_onehot
    in_range := fun _ => hi.in_range hs.ne_idle
    hdr_fresh := nofun
    payload := fun _ => hi.payload hs
    tok_room := fun _ => toNat_lt_of_le_of_ne hi.out_range ho
    copy_source := nofun }

/-- A control byte arms the mask (R101). -/
theorem loadCtrl_inv {s : State} (hi : s.Inv) (hp : s.phase ≠ .hdr) (c : Byte) : { s with ctrl := c, mask := maskTop }.Inv :=
  { hi with
    mask_onehot := by simp [maskTop]
    hdr_fresh := fun h => absurd h hp }

theorem execCtrl_inv {c : Byte} {s t : State} (hi : s.Inv) (h : execCtrl c s = .next t) : t.Inv := by
  obtain ⟨hp, -, ho, ⟨hin, rfl⟩ | ⟨-, rfl⟩⟩ := execCtrl_next h
  · have hc := hi.consumed (.inl hp) (k := 1) hin
    exact selectBit_inv (loadCtrl_inv hc (by simp [hp]) c) hp ho
  · exact raiseError_inv hi _ hi.out_range

/-! ### The tokens -/

/-- A literal is written where output was missing (R110, R122). -/
theorem putLiteral_inv {s : State} (hi : s.Inv) (hp : s.phase = .tok) (v : Byte) : { putByte v s with phase := .win }.Inv := by
  have hs : s.inPayload := .inr (.inl hp)
  have hlt := hi.tok_room hp
  have hbusy := hi.status_busy hs.ne_idle
  exact { hi with
    out_wf := Memory.write_wf hi.out_wf _ _
    hist_wf := Memory.write_wf hi.hist_wf _ _
    hist_size := fun c hc => (Memory.mem_write hc).elim (fun h => h ▸ histSlot_lt _) (hi.hist_size c)
    out_written := hi.putByte_out_written hlt v
    status_legal := statusLegal_of_busy nofun hbusy
    done_full := fun h => absurd (hbusy.symm.trans h) (by decide)
    out_range := (toNat_add_one hlt (word_le _)).trans_le hlt
    in_range := fun _ => hi.in_range hs.ne_idle
    hdr_fresh := nofun
    payload := fun _ => hi.payload hs
    tok_room := nofun
    copy_source := nofun
    hist_agrees := fun _ => hi.putByte_hist_agrees hlt v }

theorem execLit_inv {v : Byte} {s t : State} (hi : s.Inv) (h : execLit v s = .next t) : t.Inv := by
  obtain ⟨hp, -, ⟨hin, -, rfl⟩ | ⟨-, rfl⟩⟩ := execLit_next h
  · exact putLiteral_inv (hi.consumed (.inr (.inl hp)) (k := 1) hin) hp v
  · exact raiseError_inv hi _ hi.out_range

/-- The copy starts at most 4096 bytes behind the cursor, and its length is in the counter's range (R34, R57, R113). -/
theorem armCopy_inv {s : State} (hi : s.Inv) (hp : s.phase = .tok) {d : BitVec 12} {len : Nat} (hlen : len ≤ 273)
    (hle : backOf d ≤ s.outPtr.toNat) :
    { s with
      copySrc := s.outPtr - BitVec.ofNat 32 (backOf d), copyRem := BitVec.ofNat 9 len, phase := .copy }.Inv := by
  have hs : s.inPayload := .inr (.inl hp)
  have hd := d.isLt
  have hsrc := copySource_toNat hle
  exact { hi with
    status_legal := statusLegal_of_busy nofun (hi.status_busy hs.ne_idle)
    rem_range := (BitVec.toNat_ofNat len 9 ▸ Nat.mod_le _ _).trans hlen
    in_range := fun _ => hi.in_range hs.ne_idle
    hdr_fresh := nofun
    payload := fun _ => hi.payload hs
    tok_room := nofun
    copy_source := fun _ => by
      simp only [hsrc, histSize]
      unfold backOf at hle ⊢
      omega }

/-- A back-reference keeps the invariant in each of its outcomes (R111 to R115). -/
theorem RefOutcome.inv {k len : Nat} {d : BitVec 12} {s t : State} (hi : s.Inv) (hp : s.phase = .tok) (hlen : len ≤ 273)
    (h : RefOutcome k len d s t) : t.Inv := by
  have hs : s.inPayload := .inr (.inl hp)
  rcases h with ⟨hin, -, rfl⟩ | ⟨hin, hle, rfl⟩ | ⟨j, -, hj, -, rfl⟩
  · exact raiseError_inv (hi.consumed hs hin) _ hi.out_range
  · exact armCopy_inv (hi.consumed hs hin) hp hlen hle
  · have hin : s.inPtr.toNat + j ≤ s.inLen.toNat := hj.elim (fun h0 => h0 ▸ hi.in_range hs.ne_idle) id
    exact raiseError_inv (hi.consumed hs hin) _ hi.out_range

/-! ### The copy -/

/-- The end of a copy (R121). -/
theorem copyExit_inv {s : State} (hi : s.Inv) (hp : s.phase = .copy) : (copyExit s).Inv :=
  have hs : s.inPayload := .inr (.inr hp)
  { hi with
    status_legal := statusLegal_of_busy nofun (hi.status_busy hs.ne_idle)
    rem_range := Nat.zero_le _
    in_range := fun _ => hi.in_range hs.ne_idle
    hdr_fresh := nofun
    payload := fun _ => hi.payload hs
    tok_room := nofun
    copy_source := nofun }

theorem execCopy_inv {s t : State} (hi : s.Inv) (h : execCopy s = .next t) : t.Inv := by
  obtain ⟨hp, ⟨-, rfl⟩ | ⟨hr, ho, -, rfl⟩⟩ := execCopy_next h
  · exact copyExit_inv hi hp
  · exact copyByte_inv hi hp hr ho

/-! ### The engine's step -/

/-- Every engine step keeps the invariant. -/
theorem engineStep_inv {s t : State} (hi : s.Inv) (h : engineStep s = .next t) : t.Inv := by
  rcases engineStep_next h with ⟨-, rfl⟩ | ⟨-, m, n, h⟩ | ⟨-, ho, rfl⟩ | ⟨-, -, -, c, h⟩ | ⟨hp, ho, -, rfl⟩ |
    ⟨-, -, v, h⟩ | ⟨-, -, n, d, h⟩ | ⟨-, -, d, e, h⟩ | ⟨-, h⟩
  · exact hi
  · exact execHdr_inv hi h
  · exact finish_inv hi ho
  · exact execCtrl_inv hi h
  · exact selectBit_inv hi hp ho
  · exact execLit_inv hi h
  · obtain ⟨-, hp, -, h⟩ := execBrefs_next h
    exact h.inv hi hp ((shortLen_le n).trans (by decide))
  · obtain ⟨hp, -, h⟩ := execBrefl_next h
    exact h.inv hi hp (longLen_le e)
  · exact execCopy_inv hi h

end Sys2Proof.Machine
end

section
/-!
PROOFS. Determinism (R150, R93). Two engines at the same point of a decode of the same input, `SameDecode`, stay there: their
engine steps fetch the same bytes and do the same with them, and what the host does in between touches neither. So they stop
alike.
-/

namespace Sys2Proof.Machine

/-- Two engines at the same point of a decode of the same stream, reserved header bytes aside. A register counts only where the
phase or the mask says that it is read before it is written again, and a HIST slot only once this decode has written it. -/
structure SameDecode (s t : State) : Prop where
  magic : s.cfg.magic = t.cfg.magic
  outCap : s.cfg.outCap = t.cfg.outCap
  phase : s.phase = t.phase
  status : s.status = t.status
  inLen : s.inLen = t.inLen
  outLen : s.outLen = t.outLen
  inPtr : s.inPtr = t.inPtr
  outPtr : s.outPtr = t.outPtr
  mask : s.mask = t.mask
  ctrl : s.mask ≠ 0x00#8 → s.ctrl = t.ctrl
  tok : s.phase = .tok → s.tok = t.tok
  copySrc : s.phase = .copy → s.copySrc = t.copySrc
  copyRem : s.phase = .copy → s.copyRem = t.copyRem
  input : ∀ i, i < s.inLen.toNat → i < 8 ∨ 16 ≤ i → inByte s i = inByte t i
  output : ∀ i, outByte s i = outByte t i
  hist : ∀ j, j < histSize → j < s.outPtr.toNat → histRead s j = histRead t j

/-- Where both answer a next state, the two states are at the same point of the decode. -/
def SameOutcome (r r' : Host.Outcome State Fault Refusal) : Prop :=
  ∀ s t, r = .next s → r' = .next t → SameDecode s t

/-! ### The forms of an outcome -/

theorem SameDecode.next {s t : State} (h : SameDecode s t) : SameOutcome (.next s) (.next t) := by
  rintro _ _ ⟨⟩ ⟨⟩
  exact h

theorem SameOutcome.of_fault {f : Fault} {r : Host.Outcome State Fault Refusal} : SameOutcome (.fault f) r :=
  fun _ _ h => by cases h

theorem SameOutcome.of_refused {e : Refusal} {r : Host.Outcome State Fault Refusal} : SameOutcome (.refused e) r :=
  fun _ _ h => by cases h

theorem SameOutcome.ite {c c' : Prop} [Decidable c] [Decidable c'] {r₁ r₂ r₁' r₂' : Host.Outcome State Fault Refusal}
    (hc : c ↔ c') (h₁ : c → SameOutcome r₁ r₁') (h₂ : ¬ c → SameOutcome r₂ r₂') :
    SameOutcome (if c then r₁ else r₂) (if c' then r₁' else r₂') := by
  by_cases h : c
  · rw [if_pos h, if_pos (hc.mp h)]
    exact h₁ h
  · rw [if_neg h, if_neg (hc.not.mp h)]
    exact h₂ h

theorem SameOutcome.selected {c c' : Prop} [Decidable c] [Decidable c'] {r r' : Host.Outcome State Fault Refusal}
    (hc : c ↔ c') (h : c → SameOutcome r r') : SameOutcome (selected c r) (selected c' r') :=
  .ite hc h fun _ => .of_refused

theorem SameDecode.withRoom {s t : State} {r r' : Host.Outcome State Fault Refusal} (h : SameDecode s t)
    (hr : SameOutcome r r') : SameOutcome (withRoom s r) (withRoom t r') :=
  .ite (by rw [h.outPtr, h.outCap]) (fun _ => hr) fun _ => .of_fault

/-! ### The shared operations -/

theorem SameDecode.raiseError {s t : State} (h : SameDecode s t) (e : ErrorKind) :
    SameDecode (raiseError e s) (raiseError e t) :=
  { h with phase := rfl, status := rfl, tok := nofun, copySrc := nofun, copyRem := nofun }

theorem SameDecode.finish {s t : State} (h : SameDecode s t) : SameDecode (finish s) (finish t) :=
  { h with phase := rfl, status := rfl, tok := nofun, copySrc := nofun, copyRem := nofun }

/-- The payload reads are cut short at the same byte. -/
theorem SameDecode.consume {s t : State} (h : SameDecode s t) (k : Nat) {f f' : State → Host.Outcome State Fault Refusal}
    (hf : ∀ s t, SameDecode s t → SameOutcome (f s) (f' t)) : SameOutcome (consume k s f) (consume k t f') := by
  induction k generalizing s t with
  | zero => exact hf s t h
  | succ k ih =>
    exact .ite (by rw [h.inPtr, h.inLen]) (fun _ => ih { h with inPtr := congrArg (· + 1#32) h.inPtr })
      fun _ => (h.raiseError _).next

theorem SameDecode.setOutLen {s t : State} (h : SameDecode s t) (n : Word) :
    SameDecode { s with outLen := n } { t with outLen := n } := { h with outLen := rfl }

theorem SameDecode.loadCtrl {s t : State} (h : SameDecode s t) (c : Byte) :
    SameDecode { s with ctrl := c, mask := maskTop } { t with ctrl := c, mask := maskTop } :=
  { h with ctrl := fun _ => rfl, mask := rfl }

theorem SameDecode.selectBit {s t : State} (h : SameDecode s t) (hm : s.mask ≠ 0x00#8) :
    SameDecode (selectBit s) (selectBit t) :=
  { h with
    phase := rfl
    mask := congrArg maskNext h.mask
    ctrl := fun _ => h.ctrl hm
    tok := fun _ => congrArg₂ tokOf (h.ctrl hm) h.mask
    copySrc := nofun
    copyRem := nofun }

/-- The slots that count after an output byte are those before it and the one it was written to. -/
theorem SameDecode.putByte {s t : State} (h : SameDecode s t) (v : Byte) : SameDecode (putByte v s) (putByte v t) :=
  { h with
    outPtr := congrArg (· + 1#32) h.outPtr
    output := fun i => by rw [outByte_putByte, outByte_putByte, h.outPtr, h.output]
    hist := fun j hj hlt => by
      rw [histRead_putByte, histRead_putByte, h.outPtr]
      split
      case isTrue => rfl
      case isFalse hne =>
        have hnext : (s.outPtr + 1#32).toNat ≤ s.outPtr.toNat + 1 := Nat.mod_le _ _
        rw [putByte_outPtr] at hlt
        rw [← h.outPtr, histSlot] at hne
        unfold histSize at hj hne
        exact h.hist j hj (by omega) }

theorem SameDecode.setupCopy {s t : State} (h : SameDecode s t) (d : BitVec 12) (len : Nat) :
    SameDecode (setupCopy d len s) (setupCopy d len t) := by
  rw [Machine.setupCopy, Machine.setupCopy, ← h.outPtr]
  split
  · exact h.raiseError _
  · exact { h with phase := rfl, outPtr := rfl, tok := nofun, copySrc := fun _ => rfl, copyRem := fun _ => rfl }

theorem SameDecode.copyExit {s t : State} (h : SameDecode s t) : SameDecode (copyExit s) (copyExit t) :=
  { h with phase := rfl, tok := nofun, copySrc := nofun, copyRem := nofun }

/-- The source of a copy is behind the output cursor, so the byte it reads was written by this decode (R123). -/
theorem SameDecode.copyByte {s t : State} (h : SameDecode s t) (hi : s.Inv) (hp : s.phase = .copy) :
    SameDecode (copyByte s) (copyByte t) := by
  have hsrc : histSlot s.copySrc.toNat < s.outPtr.toNat := (Nat.mod_le _ _).trans_lt (hi.copy_source hp).1
  have hread : histRead s (histSlot s.copySrc.toNat) = histRead t (histSlot t.copySrc.toNat) := by
    rw [← h.copySrc hp]
    exact h.hist _ (histSlot_lt _) hsrc
  have hput := h.putByte (histRead s (histSlot s.copySrc.toNat))
  rw [Machine.copyByte, Machine.copyByte, ← hread]
  exact { hput with
    copySrc := fun _ => congrArg (· + 1#32) (h.copySrc hp)
    copyRem := fun _ => congrArg (· - 1#9) (h.copyRem hp) }

/-! ### The meanings of the engine's items -/

theorem SameDecode.tok_iff {s t : State} (h : SameDecode s t) (k : Tok) :
    s.phase = .tok ∧ s.tok = k ↔ t.phase = .tok ∧ t.tok = k := by
  rw [← h.phase]
  exact and_congr_right fun hp => by rw [h.tok hp]

theorem SameDecode.execHdr {s t : State} (h : SameDecode s t) (m : Magic) (n : Word) :
    SameOutcome (execHdr m n s) (execHdr m n t) :=
  .selected (by rw [h.phase]) fun _ =>
  .ite (by rw [h.inLen]) (fun _ => (h.raiseError _).next) fun _ =>
  .ite (by rw [h.magic]) (fun _ => (h.raiseError _).next) fun _ =>
  .ite (by rw [h.inLen]) (fun _ => (h.raiseError _).next) fun _ =>
  .ite (by rw [h.outCap]) (fun _ => ((h.setOutLen n).raiseError _).next) fun _ => SameDecode.next
    { h with
      outLen := rfl, inPtr := rfl, outPtr := rfl, mask := rfl, phase := rfl
      ctrl := fun hm => absurd rfl hm
      tok := nofun, copySrc := nofun, copyRem := nofun
      hist := fun j _ hlt => absurd hlt (Nat.not_lt_zero j) }

theorem SameDecode.execCtrl {s t : State} (h : SameDecode s t) (c : Byte) : SameOutcome (execCtrl c s) (execCtrl c t) :=
  .selected (by rw [h.phase, h.mask, h.outPtr, h.outLen]) fun _ => h.consume 1 fun _ _ h =>
    ((h.loadCtrl c).selectBit (by simp [maskTop])).next

theorem SameDecode.execLit {s t : State} (h : SameDecode s t) (v : Byte) : SameOutcome (execLit v s) (execLit v t) :=
  .selected (h.tok_iff _) fun _ => h.consume 1 fun _ _ h => h.withRoom <| SameDecode.next
    { h.putByte v with phase := rfl, tok := nofun, copySrc := nofun, copyRem := nofun }

theorem SameDecode.execBrefs {s t : State} (h : SameDecode s t) (n : BitVec 4) (d : BitVec 12) :
    SameOutcome (execBrefs n d s) (execBrefs n d t) :=
  .ite Iff.rfl (fun _ => .of_refused) fun _ => .selected (h.tok_iff _) fun _ => h.consume 2 fun _ _ h => (h.setupCopy d _).next

theorem SameDecode.execBrefl {s t : State} (h : SameDecode s t) (d : BitVec 12) (e : Byte) :
    SameOutcome (execBrefl d e s) (execBrefl d e t) :=
  .selected (h.tok_iff _) fun _ => h.consume 3 fun _ _ h => (h.setupCopy d _).next

theorem SameDecode.execCopy {s t : State} (h : SameDecode s t) (hi : s.Inv) : SameOutcome (execCopy s) (execCopy t) :=
  .selected (by rw [h.phase]) fun hp => .ite (by rw [h.copyRem hp, h.outPtr, h.outLen]) (fun _ => h.copyExit.next)
    fun _ => h.withRoom (h.copyByte hi hp).next

/-! ### The fetch -/

theorem SameDecode.fetchByte_eq {s t : State} (h : SameDecode s t) {i : Nat} (hr : i < 8 ∨ 16 ≤ i) :
    fetchByte s i = fetchByte t i := by
  by_cases hL : i < s.inLen.toNat
  · simp [fetchByte, ← h.inLen, hL, h.input i hL hr]
  · simp [fetchByte, ← h.inLen, hL]

/-- A run of bytes that leaves the reserved ones aside (R93). -/
theorem SameDecode.fetchBytes_eq {s t : State} (h : SameDecode s t) {p k : Nat} (hr : p + k ≤ 8 ∨ 16 ≤ p) :
    fetchBytes s p k = fetchBytes t p k := by
  induction k generalizing p with
  | zero => rfl
  | succ k ih => simp only [fetchBytes, h.fetchByte_eq (i := p) (by omega), ih (p := p + 1) (by omega)]

/-- The header's fetch skips the reserved bytes, and a payload item begins behind them (R26, R93). -/
theorem SameDecode.fetchItem_eq {s t : State} (h : SameDecode s t) {c : StreamCtx} (hc : c = .hdr ∨ 16 ≤ s.inPtr.toNat) :
    fetchItem c s = fetchItem c t := by
  cases c with
  | hdr =>
    simp only [fetchItem, fetchHdr, ← h.inLen, ← h.magic, h.fetchBytes_eq (p := 0) (k := 4) (by decide),
      h.fetchBytes_eq (p := 4) (k := 4) (by decide)]
  | win | lit =>
    have hin := hc.resolve_left nofun
    simp only [fetchItem, ← h.inPtr, h.fetchBytes_eq (.inr hin)]
  | ref =>
    have hin := hc.resolve_left nofun
    simp only [fetchItem, fetchRef, ← h.inPtr, h.fetchByte_eq (.inr hin), h.fetchBytes_eq (.inr hin)]

/-! ### The engine's step -/

theorem SameDecode.popTurn {s t : State} (h : SameDecode s t) : SameDecode s.popTurn t.popTurn := { h with }

theorem SameDecode.expects {s t : State} (h : SameDecode s t) {c : StreamCtx} (hx : s.expects c) : t.expects c := by
  cases c with
  | hdr => exact h.phase.symm.trans hx
  | win => rwa [State.expects, ← h.phase, ← h.mask, ← h.outPtr, ← h.outLen]
  | lit => exact (h.tok_iff _).mp hx
  | ref => exact (h.tok_iff _).mp hx

/-- Bytes that are no item have no step. -/
theorem step_of_decode_error {c : StreamCtx} {s : State} {bytes : List Byte} {e : DecodeError} (ht : s.engineTurn = true)
    (hx : s.expects c) (hf : fetchItem c s = .ok bytes) (hd : decode (.stream c bytes) = .error e) :
    step s = .refused (.rejected e) := by
  have hp : s.popTurn.expects c := by cases c <;> exact hx
  have hm : nextMove s.popTurn = .reject e := by
    rw [nextMove_of_expects hp]
    simp [fetchMove, hf, hd]
  rw [step_engine ht]
  simp [engineStep, hm]

/-- Two engines that fetch in one context run the same item, if any. -/
theorem SameDecode.step_of_expects {s t : State} (h : SameDecode s t) {c : StreamCtx} (hs : s.engineTurn = true)
    (ht : t.engineTurn = true) (hx : s.expects c) (hc : c = .hdr ∨ 16 ≤ s.inPtr.toNat)
    (hexec : ∀ bytes i rest, decodeStream c bytes = .ok (i, rest) → SameOutcome (exec i s.popTurn) (exec i t.popTurn)) :
    SameOutcome (step s) (step t) := by
  have hf := h.fetchItem_eq hc
  cases hfs : fetchItem c s with
  | error j =>
    rw [step_of_fetchItem_error hs hx hfs]
    exact .of_fault
  | ok bytes =>
    cases hd : decodeStream c bytes with
    | error e =>
      rw [step_of_decode_error hs hx hfs (e := e) (by simp [decode, hd, Except.map])]
      exact .of_refused
    | ok p =>
      have hdec : decode (.stream c bytes) = .ok p.1 := by simp [decode, hd, Except.map]
      rw [step_of_fetchItem_ok hs hx hfs hdec, step_of_fetchItem_ok ht (h.expects hx) (hf ▸ hfs) hdec]
      exact hexec bytes p.1 p.2 hd

/-- In COPY the engine's turn is the copy unit's step (R120). -/
theorem step_copy_turn {s : State} (ht : s.engineTurn = true) (hp : s.phase = .copy) : step s = execCopy s.popTurn := by
  rw [step_engine ht]
  simp [engineStep, nextMove, hp, decode, exec]

/-- The engines' steps from one point of a decode lead to one point again. -/
theorem SameDecode.step {s t : State} (h : SameDecode s t) (hi : s.Inv) (hs : s.engineTurn = true)
    (ht : t.engineTurn = true) (hb : s.phase ≠ .idle) : SameOutcome (step s) (step t) := by
  have hpop := h.popTurn
  cases hp : s.phase with
  | idle => exact absurd hp hb
  | hdr =>
    refine h.step_of_expects (c := .hdr) hs ht hp (.inl rfl) fun bytes i rest hd => ?_
    obtain ⟨m, n, rfl⟩ := decodeStream_hdr_ok hd
    exact hpop.execHdr m n
  | win =>
    have hin := (hi.payload (.inl hp)).2
    have hpt : t.phase = .win := h.phase.symm.trans hp
    by_cases ho : s.outPtr = s.outLen
    · rw [step_win_finish hs hp ho, step_win_finish ht hpt (by rwa [← h.outPtr, ← h.outLen])]
      exact hpop.finish.next
    · by_cases hm : s.mask = 0x00#8
      · refine h.step_of_expects (c := .win) hs ht ⟨hp, hm, ho⟩ (.inr hin) fun bytes i rest hd => ?_
        obtain ⟨c, rfl⟩ := decodeStream_win_ok hd
        exact hpop.execCtrl c
      · rw [step_win_select hs hp ho hm,
          step_win_select ht hpt (by rwa [← h.outPtr, ← h.outLen]) (by rwa [← h.mask])]
        exact (hpop.selectBit hm).next
  | tok =>
    have hin := (hi.payload (.inr (.inl hp))).2
    cases hk : s.tok with
    | lit =>
      refine h.step_of_expects (c := .lit) hs ht ⟨hp, hk⟩ (.inr hin) fun bytes i rest hd => ?_
      obtain ⟨v, rfl⟩ := decodeStream_lit_ok hd
      exact hpop.execLit v
    | ref =>
      refine h.step_of_expects (c := .ref) hs ht ⟨hp, hk⟩ (.inr hin) fun bytes i rest hd => ?_
      obtain ⟨n, d, -, rfl⟩ | ⟨d, e, rfl⟩ := decodeStream_ref_ok hd
      · exact hpop.execBrefs n d
      · exact hpop.execBrefl d e
  | copy =>
    rw [step_copy_turn hs hp, step_copy_turn ht (h.phase.symm.trans hp)]
    exact hpop.execCopy { hi with }

/-! ### The turns of a decode -/

/-- The engine does not touch the list of turns. -/
theorem engineStep_turns {s t : State} (h : engineStep s = .next t) : t.turns = s.turns := by
  have ref {k len : Nat} {d : BitVec 12} (h : RefOutcome k len d s t) : t.turns = s.turns := by
    rcases h with ⟨-, -, rfl⟩ | ⟨-, -, rfl⟩ | ⟨_, -, -, -, rfl⟩ <;> rfl
  rcases engineStep_next h with ⟨-, rfl⟩ | ⟨-, m, n, h⟩ | ⟨-, -, rfl⟩ | ⟨-, -, -, c, h⟩ | ⟨-, -, -, rfl⟩ |
    ⟨-, -, v, h⟩ | ⟨-, -, n, d, h⟩ | ⟨-, -, d, e, h⟩ | ⟨-, h⟩
  · rfl
  · obtain ⟨-, ⟨-, rfl⟩ | ⟨-, -, rfl⟩ | ⟨-, -, -, rfl⟩ | ⟨-, -, -, rfl⟩ | ⟨-, -, -, rfl⟩⟩ := execHdr_next h <;> rfl
  · rfl
  · obtain ⟨-, -, -, ⟨-, rfl⟩ | ⟨-, rfl⟩⟩ := execCtrl_next h <;> rfl
  · rfl
  · obtain ⟨-, -, ⟨-, -, rfl⟩ | ⟨-, rfl⟩⟩ := execLit_next h <;> rfl
  · obtain ⟨-, -, -, h⟩ := execBrefs_next h
    exact ref h
  · obtain ⟨-, -, h⟩ := execBrefl_next h
    exact ref h
  · obtain ⟨-, ⟨-, rfl⟩ | ⟨-, -, -, rfl⟩⟩ := execCopy_next h <;> rfl

/-- While BUSY a host operation changes what the host has read and nothing else (R130 to R136). -/
theorem hostStep_busy {a : HostAccess} {s t : State} (hb : s.phase ≠ .idle) (h : hostStep a s = .next t) :
    ∃ r d, t = { s with reply := r, draws := d } := by
  rcases hostStep_next h with ⟨off, h⟩ | ⟨v, -, h⟩ | ⟨v, h⟩ | rfl | ⟨i, b, h⟩ | ⟨i, h⟩
  · obtain ⟨-, rfl⟩ := execRegRead_next h
    exact ⟨_, _, rfl⟩
  · obtain ⟨-, hp, -⟩ | ⟨-, rfl⟩ := execRegWriteCtrl_next h
    · exact absurd hp hb
    · exact ⟨_, _, rfl⟩
  · obtain ⟨hp, -⟩ | ⟨-, rfl⟩ := execRegWriteInLen_next h
    · exact absurd hp hb
    · exact ⟨_, _, rfl⟩
  · exact ⟨_, _, rfl⟩
  · obtain ⟨hp, -⟩ := execInWrite_next h
    exact absurd hp hb
  · obtain ⟨-, -, b, -, rfl⟩ := execOutRead_next h
    exact ⟨_, _, rfl⟩

/-- A step of a running decode with no reset to come: the engine's, or the host's, which leaves the engine alone. -/
theorem step_busy_cases {s t : State} (hb : s.phase ≠ .idle) (hr : .reset ∉ s.turns) (h : step s = .next t) :
    .reset ∉ t.turns ∧ (s.engineTurn = true ∨ ∃ ts r d, t = { s with turns := ts, reply := r, draws := d }) := by
  obtain ht | ⟨a, ts, ht⟩ | ⟨ts, ht⟩ := turn_cases s
  · rw [step_engine ht] at h
    rw [engineStep_turns h]
    exact ⟨fun hm => hr (List.mem_of_mem_tail hm), .inl ht⟩
  · rw [step_host ht] at h
    obtain ⟨r, d, rfl⟩ := hostStep_busy (s := { s with turns := ts }) hb h
    exact ⟨fun hm => hr (ht ▸ List.mem_cons_of_mem _ hm), .inr ⟨ts, r, d, rfl⟩⟩
  · exact absurd (ht ▸ List.mem_cons_self) hr

/-! ### The run of a decode -/

theorem decodeRun_idle {s : State} (hp : s.phase = .idle) (k : Nat) : decodeRun k s = .next s := by
  cases k with
  | zero => rfl
  | succ k => exact if_pos hp

/-- A run that ends in IDLE from a running decode takes a step. -/
theorem decodeRun_busy {k : Nat} {s u : State} (hb : s.phase ≠ .idle) (h : decodeRun k s = .next u) (hu : u.phase = .idle) :
    ∃ j t, k = j + 1 ∧ step s = .next t ∧ decodeRun j t = .next u := by
  cases k with
  | zero =>
    cases h
    exact absurd hu hb
  | succ k =>
    rw [decodeRun, if_neg hb] at h
    cases hs : step s with
    | next t => exact ⟨k, t, rfl, rfl, by rwa [hs] at h⟩
    | fault r => rw [hs] at h; cases h
    | refused r => rw [hs] at h; cases h

/-- Two engines at one point of a decode stop alike: a host's turn of either leaves it at that point, and the engines' turns
are taken together. -/
theorem SameDecode.decodeRun {s₁ s₂ t₁ t₂ : State} {k₁ k₂ : Nat} (h : SameDecode s₁ s₂) (hi : s₁.Inv)
    (hr₁ : .reset ∉ s₁.turns) (hr₂ : .reset ∉ s₂.turns) (h₁ : decodeRun k₁ s₁ = .next t₁) (ht₁ : t₁.phase = .idle)
    (h₂ : decodeRun k₂ s₂ = .next t₂) (ht₂ : t₂.phase = .idle) : SameDecode t₁ t₂ := by
  induction hn : k₁ + k₂ using Nat.strong_induction_on generalizing k₁ k₂ s₁ s₂ with
  | h n ih =>
    by_cases hp : s₁.phase = .idle
    · rw [decodeRun_idle hp] at h₁
      rw [decodeRun_idle (h.phase.symm.trans hp)] at h₂
      exact h.next _ _ h₁ h₂
    · obtain ⟨j₁, u₁, rfl, hs₁, hd₁⟩ := decodeRun_busy hp h₁ ht₁
      obtain ⟨j₂, u₂, rfl, hs₂, hd₂⟩ := decodeRun_busy (h.phase ▸ hp) h₂ ht₂
      obtain ⟨hu₁, he₁ | ⟨ts, r, d, rfl⟩⟩ := step_busy_cases hp hr₁ hs₁
      · obtain ⟨hu₂, he₂ | ⟨ts, r, d, rfl⟩⟩ := step_busy_cases (h.phase ▸ hp) hr₂ hs₂
        · have hu : SameDecode u₁ u₂ := h.step hi he₁ he₂ hp _ _ hs₁ hs₂
          have hiu : u₁.Inv := engineStep_inv (s := s₁.popTurn) { hi with } (step_engine he₁ ▸ hs₁)
          exact ih (j₁ + j₂) (by omega) hu hiu hu₁ hu₂ hd₁ hd₂ rfl
        · have hu : SameDecode s₁ { s₂ with turns := ts, reply := r, draws := d } := { h with }
          exact ih (j₁ + 1 + j₂) (by omega) hu hi hr₁ hu₂ h₁ hd₂ rfl
      · have hu : SameDecode { s₁ with turns := ts, reply := r, draws := d } s₂ := { h with }
        exact ih (j₁ + (j₂ + 1)) (by omega) hu { hi with } hu₁ hr₂ hd₁ h₂ rfl

/-- Two started engines with the same parameters and input are at one point of a decode: its beginning (R131). -/
theorem SameDecode.of_hdr {s t : State} (hs : s.Inv) (ht : t.Inv) (hps : s.phase = .hdr) (hpt : t.phase = .hdr)
    (hm : s.cfg.magic = t.cfg.magic) (hc : s.cfg.outCap = t.cfg.outCap) (hL : s.inLen = t.inLen)
    (hin : ∀ i, i < s.inLen.toNat → i < 8 ∨ 16 ≤ i → inByte s i = inByte t i) : SameDecode s t := by
  obtain ⟨hs_in, hs_out, hs_len, hs_mask⟩ := hs.hdr_fresh hps
  obtain ⟨ht_in, ht_out, ht_len, ht_mask⟩ := ht.hdr_fresh hpt
  have empty {u : State} (hu : u.Inv) (h0 : u.outPtr = 0#32) (i : Nat) : outByte u i = none := by
    simpa [h0] using hu.out_written i
  exact {
    magic := hm, outCap := hc, inLen := hL, input := hin
    phase := hps.trans hpt.symm
    status := (hs.status_busy (by simp [hps])).trans (ht.status_busy (by simp [hpt])).symm
    outLen := hs_len.trans ht_len.symm
    inPtr := hs_in.trans ht_in.symm
    outPtr := hs_out.trans ht_out.symm
    mask := hs_mask.trans ht_mask.symm
    ctrl := fun h => absurd hs_mask h
    tok := fun h => by simp [hps] at h
    copySrc := fun h => by simp [hps] at h
    copyRem := fun h => by simp [hps] at h
    output := fun i => (empty hs hs_out i).trans (empty ht ht_out i).symm
    hist := fun j _ h => by simp [hs_out] at h }

/-- Settles O56: the two engines begin at one point of a decode, so they stop at one. -/
theorem decodeIsDeterministic : Obligations.DecodeIsDeterministic := by
  intro s₁ s₂ hi₁ hi₂ hr₁ hr₂ hp₁ hp₂ hm hc hL hin k₁ k₂ t₁ t₂ h₁ ht₁ h₂ ht₂
  have start : SameDecode s₁ s₂ := .of_hdr hi₁ hi₂ hp₁ hp₂ hm hc hL hin
  have stop : SameDecode t₁ t₂ := start.decodeRun hi₁ hr₁ hr₂ h₁ ht₁ h₂ ht₂
  exact ⟨stop.status, stop.inPtr, stop.outPtr, stop.outLen, stop.output⟩

end Sys2Proof.Machine
end

section
/-!
PROOFS. Hardware reset (R160): the registers and the bytes it leaves behind, whatever it interrupts.
-/

namespace Sys2Proof.Machine

/-- R39: a reset leaves no byte of IN written, under any capacity. -/
@[simp] theorem inByte_hardwareReset (s : State) (i : Nat) : inByte (hardwareReset s) i = none :=
  ite_self none

/-- R39: a reset leaves no byte of OUT written. -/
@[simp] theorem outByte_hardwareReset (s : State) (i : Nat) : outByte (hardwareReset s) i = none :=
  Memory.read_nil i

/-- Settles O2: a reset turn answers `hardwareReset` in every phase, and its laws give the value of each piece of state. -/
theorem hardwareResetSetsEveryResetValue : Obligations.HardwareResetSetsEveryResetValue := by
  intro s ts h
  refine ⟨hardwareReset { s with turns := ts }, step_reset h, ?registers⟩
  case registers => simp

end Sys2Proof.Machine
end

section
/-!
PROOFS. Round trip of the encodings (30_encoding.md, 44_host.md): each kind of instruction is decoded from what the encoder
writes, and a back-reference is written with the bytes it was read from (R70 to R82).
-/

namespace Sys2Proof

/-! ### Decode of encode -/

/-- A stream item is decoded from its bytes, and the bytes after them are left over. -/
theorem decodeStream_of_encode {i : Instr} (hw : i.wellFormed = true) {c : StreamCtx} {bytes : List Byte}
    (h : encode i = .stream c bytes) (rest : List Byte) : decodeStream c (bytes ++ rest) = .ok (i, rest) := by
  cases i with
  | hdr m n =>
    cases h
    simp [encodeBytes, decodeStream]
  | ctrl c =>
    cases h
    rfl
  | lit v =>
    cases h
    rfl
  | brefl d e =>
    cases h
    simp [encodeBytes, decodeStream]
  | brefs n d =>
    cases h
    have hn : n ≠ 0#4 := by simpa [Instr.wellFormed] using hw
    simp [encodeBytes, decodeStream, hn]
  | copy | regRead _ | regWriteCtrl _ | regWriteInLen _ | regWriteOther _ _ | inWrite _ _ | outRead _ => cases h

theorem decode_of_encode_stream {i : Instr} (hw : i.wellFormed = true) {c : StreamCtx} {bytes : List Byte}
    (h : encode i = .stream c bytes) : decode (.stream c bytes) = .ok i := by
  have hd := decodeStream_of_encode hw h []
  rw [List.append_nil] at hd
  rw [decode, hd]
  rfl

/-- An offset of RegWrite.other selects neither of the two named rows (R133). -/
theorem decodeRegWrite_of_offOther {off : BitVec 8} (h : offOther off = true) (v : Word) :
    decodeRegWrite off v = .regWriteOther off v := by
  simp only [offOther, Bool.and_eq_true, bne_iff_ne] at h
  obtain ⟨⟨-, hctrl⟩, hlen⟩ := h
  rw [decodeRegWrite, if_neg hctrl, if_neg hlen]

theorem offAligned_of_offOther {off : BitVec 8} (h : offOther off = true) : offAligned off = true := by
  simp only [offOther, Bool.and_eq_true] at h
  obtain ⟨⟨haligned, -⟩, -⟩ := h
  exact haligned

/-- The whole decoder undoes the encoder. -/
theorem decode_encode {i : Instr} (hw : i.wellFormed = true) : decode (encode i) = .ok i := by
  cases i with
  | hdr _ _ | ctrl _ | lit _ | brefl _ _ | brefs _ _ => exact decode_of_encode_stream hw rfl
  | copy | regWriteCtrl _ | regWriteInLen _ | inWrite _ _ | outRead _ => rfl
  | regRead off =>
    have ha : offAligned off = true := hw
    rw [encode, decode, decodeHost, decodeOffset_w32 ha]
    rfl
  | regWriteOther off v =>
    have ho : offOther off = true := hw
    rw [encode, decode, decodeHost, decodeOffset_w32 (offAligned_of_offOther ho), Except.map,
      decodeRegWrite_of_offOther ho]

/-- Settles O38: the decoder takes out of each format what the encoder put in, and reads no byte behind a stream item. -/
theorem decodeOfEncodeIsTheInstruction : Obligations.DecodeOfEncodeIsTheInstruction :=
  fun _ hw => ⟨decode_encode hw, fun _ _ h rest => decodeStream_of_encode hw h rest⟩

/-! ### Encode of decode, for the back-references -/

/-- The two fields of a first byte put together again (R74, R82). -/
theorem refByte1_fields (b1 b2 : Byte) : refByte1 (lenNibble b1) (distField b1 b2) = b1 := by
  ext i hi
  simp only [refByte1, lenNibble, distField]
  interval_cases i <;> simp

theorem refByte2_distField (b1 b2 : Byte) : refByte2 (distField b1 b2) = b2 := by
  ext i hi
  simp only [refByte2, distField]
  interval_cases i <;> simp

/-- Settles O39: the nibble of the first byte selects the form, whose fields hold every bit of its bytes. -/
theorem everyReferenceSpellingIsLegal : Obligations.EveryReferenceSpellingIsLegal := by
  intro b1 b2 b3 rest
  have hform : b1.toNat < 16 ↔ lenNibble b1 = 0#4 := by
    rw [Machine.lenNibble_eq_zero_iff]
    omega
  have hb1 := refByte1_fields b1 b2
  by_cases hn : lenNibble b1 = 0#4
  · rw [hn] at hb1
    refine ⟨.brefl (distField b1 b2) b3, rest, by simp [decodeStream, hn], rfl, rfl, ?_, (if_pos (hform.mpr hn)).symm⟩
    simp [encodeBytes, hb1, refByte2_distField]
  · refine ⟨.brefs (lenNibble b1) (distField b1 b2), b3 :: rest, by simp [decodeStream, hn],
      by simpa [Instr.wellFormed] using hn, rfl, ?_, (if_neg (mt hform.mp hn)).symm⟩
    simp [encodeBytes, hb1, refByte2_distField]

/-- Settles O37: the decoder runs on each of the written-out words. -/
theorem writtenWordsDecode : Obligations.WrittenWordsDecode := ⟨rfl, rfl, rfl, rfl, rfl, rfl, rfl⟩

end Sys2Proof
end

section
/-!
PROOFS. The invariant of the machine: the host's operations and a reset keep it too, so every step does, and STATUS keeps its
seven values by itself, in any state (R24, R39, R130 to R136, R160).
-/

namespace Sys2Proof.Machine

/-! ### Reset -/

/-- The reset values meet the invariant under any configuration and any values of the model's own fields (R39). -/
theorem resetValues_inv (c : Config) (k d : Nat) (r : Reply) (ts : List Turn) :
    { State.reset with cfg := c, histSeed := k, draws := d, reply := r, turns := ts }.Inv where
  in_wf := List.Pairwise.nil
  out_wf := List.Pairwise.nil
  hist_wf := List.Pairwise.nil
  in_size := nofun
  hist_size := nofun
  out_written := fun i => by simp [outByte, State.reset]
  status_legal := (if_pos rfl).mpr (by simp [State.reset])
  done_full := fun _ => rfl
  mask_onehot := by simp [State.reset]
  rem_range := Nat.zero_le _
  out_range := le_rfl
  in_range := fun h => absurd rfl h
  hdr_fresh := nofun
  payload := fun h => absurd rfl h.ne_idle
  tok_room := nofun
  copy_source := nofun
  hist_agrees := fun i h => absurd h (Nat.not_lt_zero i)

theorem hardwareReset_inv (s : State) : (hardwareReset s).Inv := resetValues_inv s.cfg (s.histSeed + 1) s.draws s.reply s.turns

/-- Settles O53: the reset state holds the reset values in the default configuration. -/
theorem resetMeetsTheInvariant : Obligations.ResetMeetsTheInvariant := resetValues_inv Config.default 0 0 .none []

/-- Settles O1: the values stand in `State.reset`, whose spaces list no byte. -/
theorem resetStateHoldsTheResetValues : Obligations.ResetStateHoldsTheResetValues :=
  ⟨rfl, rfl, rfl, rfl, rfl, rfl, rfl, rfl, rfl, rfl, rfl, fun i => ⟨ite_self none, Memory.read_nil i⟩, fun _ => rfl⟩

/-! ### The host's operations -/

/-- START empties OUT with the cursors, and IN, HIST and `L` stay (R131). -/
theorem startDecode_inv {s : State} (hi : s.Inv) : (startDecode s).Inv :=
  { hi with
    out_wf := List.Pairwise.nil
    out_written := fun i => by simp [outByte]
    status_legal := statusLegal_of_busy nofun rfl
    done_full := fun _ => rfl
    mask_onehot := by simp
    rem_range := Nat.zero_le _
    out_range := le_rfl
    in_range := fun _ => Nat.zero_le _
    hdr_fresh := fun _ => ⟨rfl, rfl, rfl, rfl⟩
    payload := fun h => absurd rfl h.ne_hdr
    tok_room := nofun
    copy_source := nofun
    hist_agrees := fun i h => absurd h (Nat.not_lt_zero i) }

/-- While idle nothing is said of `L`, so the host may set it (R132). -/
theorem setInLen_inv {s : State} (hi : s.Inv) (hp : s.phase = .idle) (v : Word) : { s with inLen := v }.Inv :=
  { hi with in_range := fun h => absurd hp h }

/-- An input byte below IN_CAP (R134). -/
theorem writeInput_inv {s : State} (hi : s.Inv) {i : Nat} (h : i < s.cfg.inCap) (b : Byte) :
    { s with inMem := Memory.write s.inMem i b }.Inv :=
  { hi with
    in_wf := Memory.write_wf hi.in_wf i b
    in_size := fun c hc => (Memory.mem_write hc).elim (fun h' => h' ▸ h) (hi.in_size c) }

/-- Every host operation keeps the invariant. -/
theorem hostStep_inv {a : HostAccess} {s t : State} (hi : s.Inv) (h : hostStep a s = .next t) : t.Inv := by
  rcases hostStep_next h with ⟨off, h⟩ | ⟨v, -, h⟩ | ⟨v, h⟩ | rfl | ⟨i, b, h⟩ | ⟨i, h⟩
  · obtain ⟨-, rfl⟩ := execRegRead_next h
    exact { hi with }
  · obtain ⟨-, -, rfl⟩ | ⟨-, rfl⟩ := execRegWriteCtrl_next h
    · exact startDecode_inv hi
    · exact hi
  · obtain ⟨hp, rfl⟩ | ⟨-, rfl⟩ := execRegWriteInLen_next h
    · exact setInLen_inv hi hp v
    · exact hi
  · exact hi
  · obtain ⟨-, hcap, rfl⟩ := execInWrite_next h
    exact writeInput_inv hi hcap b
  · obtain ⟨-, -, b, -, rfl⟩ := execOutRead_next h
    exact { hi with }

/-! ### Every step -/

/-- Every step keeps the invariant: the turn that it takes off the list is no part of it. -/
theorem step_inv {s t : State} (hi : s.Inv) (h : step s = .next t) : t.Inv := by
  obtain ht | ⟨a, ts, ht⟩ | ⟨ts, ht⟩ := turn_cases s
  · rw [step_engine ht] at h
    exact engineStep_inv (s := s.popTurn) { hi with } h
  · rw [step_host ht] at h
    exact hostStep_inv (s := { s with turns := ts }) { hi with } h
  · rw [step_reset ht] at h
    cases h
    exact hardwareReset_inv _

/-- Settles O54: the step is the engine's, the host's or a reset, and each keeps every part of the invariant. -/
theorem everyStepKeepsTheInvariant : Obligations.EveryStepKeepsTheInvariant := fun _ _ hi h => step_inv hi h

end Sys2Proof.Machine
end

section
/-!
PROOFS. One turn: which meaning it runs (R20, R30, R79), which terms and accesses have none (R55, R136, log entries 10,
11), and the outcomes of the single meanings (R90, R101, R111 to R113, R120).
-/

namespace Sys2Proof

/-! ### Register accesses -/

theorem decodeOffset_aligned {a : Word} (ha : a.toNat % 4 = 0) (hle : a.toNat ≤ 0xFC) :
    decodeOffset .w32 a = .ok (a.setWidth 8) := by
  have low : (a.setWidth 8).toNat = a.toNat := by
    rw [BitVec.toNat_setWidth]
    omega
  have whole : (a.setWidth 8).setWidth 32 = a := by
    apply BitVec.eq_of_toNat_eq
    rw [BitVec.toNat_setWidth_of_le (by decide), low]
  have h := decodeOffset_w32 ((offAligned_iff _).mpr (low ▸ ha))
  rwa [whole] at h

/-- R55: what an accepted access is, read the other way. -/
theorem decodeOffset_error {w : AccessWidth} {a : Word} (h : w ≠ .w32 ∨ a.toNat % 4 ≠ 0 ∨ 0xFC < a.toNat) :
    ∃ e, decodeOffset w a = .error e := by
  cases hd : decodeOffset w a with
  | error e => exact ⟨e, rfl⟩
  | ok off =>
    obtain ⟨hw, hle, rfl, ha⟩ := decodeOffset_ok hd
    rw [offAligned_iff, BitVec.toNat_setWidth] at ha
    rcases h with hne | hbad
    · exact absurd hw hne
    · omega

end Sys2Proof

namespace Sys2Proof.Machine

/-! ### The host's turn -/

theorem step_host_of_decode_ok {s : State} {a : HostAccess} {ts : List Turn} {i : Instr} (ht : s.turns = .host a :: ts)
    (h : decode (.host a) = .ok i) : step s = exec i { s with turns := ts } := by
  rw [step_host ht, hostStep, h]

theorem step_host_of_decode_error {s : State} {a : HostAccess} {ts : List Turn} {e : DecodeError}
    (ht : s.turns = .host a :: ts) (h : decode (.host a) = .error e) : step s = .refused (.rejected e) := by
  rw [step_host ht, hostStep, h]

/-- Settles O5: the host's turn is the decoder's verdict. -/
theorem hostStepRunsTheDecodedAccess : Obligations.HostStepRunsTheDecodedAccess :=
  fun _ _ _ ht => ⟨fun _ => step_host_of_decode_ok ht, fun _ => step_host_of_decode_error ht⟩

/-- A write at an aligned offset goes through, whichever of the three rows it selects (R131 to R133). -/
theorem exec_decodeRegWrite {off : BitVec 8} (h : off.toNat % 4 = 0) (v : Word) (s : State) :
    ∃ t, exec (decodeRegWrite off v) s = .next t := by
  rw [decodeRegWrite]
  split_ifs with hctrl hlen
  · rw [exec, execRegWriteCtrl]
    split <;> exact ⟨_, rfl⟩
  · rw [exec, execRegWriteInLen]
    split <;> exact ⟨_, rfl⟩
  · exact ⟨s, execRegWriteOther_other v s (offOther_of_aligned h hctrl hlen)⟩

/-- Settles O35: the decoder refuses the accesses of another form, and the meaning of a register access refuses none of the
others. -/
theorem registerAccessesOfAnotherFormAreRefused : Obligations.RegisterAccessesOfAnotherFormAreRefused := by
  intro s ts w a v
  refine ⟨fun ht => step_host_of_decode_error ht rfl, fun ht => ⟨?refused, ?answered⟩⟩
  case refused =>
    intro h
    obtain ⟨e, he⟩ := decodeOffset_error h
    refine ⟨e, ?_⟩
    rcases ht with ht | ht <;> exact step_host_of_decode_error ht (by rw [decode, decodeHost, he]; rfl)
  case answered =>
    rintro rfl ha hle
    have hoff := decodeOffset_aligned ha hle
    obtain ⟨-, -, -, haligned⟩ := decodeOffset_ok hoff
    have haligned := (offAligned_iff _).mp haligned
    rcases ht with ht | ht
    · rw [step_host_of_decode_ok (i := .regRead (a.setWidth 8)) ht (by rw [decode, decodeHost, hoff]; rfl)]
      exact ⟨_, execRegRead_aligned haligned⟩
    · rw [step_host_of_decode_ok (i := decodeRegWrite (a.setWidth 8) v) ht (by rw [decode, decodeHost, hoff]; rfl)]
      exact exec_decodeRegWrite haligned v _

/-! ### The engine's turn -/

/-- R30, R157: in IDLE the engine has no step. -/
theorem step_idle {s : State} (ht : s.engineTurn = true) (hp : s.phase = .idle) : step s = .next s.popTurn := by
  rw [step_engine ht]
  simp [engineStep, nextMove, hp]

/-- Settles O4: the phase alone selects these two rules (R30). -/
theorem engineStepCopiesOrWaits : Obligations.EngineStepCopiesOrWaits :=
  fun _ ht => ⟨step_copy_turn ht, step_idle ht⟩

/-- The fetch supplies the bytes of an item of the payload: the first byte of a back-reference tells how many. -/
theorem fetchItem_of_encode {s : State} {i : Instr} {c : StreamCtx} {bytes : List Byte} (hw : i.wellFormed = true)
    (he : encode i = .stream c bytes) (hc : c ≠ .hdr) (h : s.holds s.inPtr.toNat bytes) : fetchItem c s = .ok bytes := by
  cases i with
  | hdr m n =>
    cases he
    exact absurd rfl hc
  | ctrl _ | lit _ =>
    cases he
    exact fetchBytes_of_holds h
  | brefl d e =>
    cases he
    rw [fetchItem_ref_of_holds h, lenNibble_refByte1, if_pos rfl]
    exact fetchBytes_of_holds h
  | brefs n d =>
    cases he
    have hn : n ≠ 0#4 := by simpa [Instr.wellFormed] using hw
    rw [fetchItem_ref_of_holds h, lenNibble_refByte1, if_neg hn]
    exact fetchBytes_of_holds h
  | copy | regRead _ | regWriteCtrl _ | regWriteInLen _ | regWriteOther _ _ | inWrite _ _ | outRead _ => cases he

/-- A header runs with the operands that its first eight bytes hold. Behind a wrong magic the engine reads no length, and the
meaning does not look at it (R90 b). -/
theorem step_hdr_of_encode {s : State} {m : Magic} {n : Word} (ht : s.engineTurn = true) (hp : s.phase = .hdr)
    (h : s.holds 0 (m.bytes ++ [beByte n 0, beByte n 1, beByte n 2, beByte n 3])) (hL : 16 ≤ s.inLen.toNat) :
    step s = exec (.hdr m n) s.popTurn := by
  by_cases hm : m = s.cfg.magic
  · subst hm
    rw [step_hdr_complete ht hp hL h, be32_beByte]
    rfl
  · rw [step_hdr_wrong_magic ht hp h.left hm]
    exact (execHdr_of_wrong_magic (s := s.popTurn) hp ((by decide : 4 ≤ 16).trans hL) hm).symm

/-- Settles O3: the fetch supplies the item's bytes, which decode to it (O38). -/
theorem engineStepRunsTheDecodedItem : Obligations.EngineStepRunsTheDecodedItem := by
  intro s i c bytes ht hw he hx h
  by_cases hc : c = .hdr
  · subst hc
    rw [if_pos rfl] at h
    obtain ⟨hheld, hL⟩ := h
    obtain ⟨m, n, rfl⟩ := decodeStream_hdr_ok (decodeStream_of_encode hw he [])
    cases he
    exact step_hdr_of_encode ht hx hheld hL
  · rw [if_neg hc] at h
    exact step_of_fetchItem_ok ht hx (fetchItem_of_encode hw he hc h) (decode_of_encode_stream hw he)

/-! ### Terms without a meaning -/

/-- Log entry 11: the meaning of each row tests what `Instr.wellFormed` asks of its operands. -/
theorem exec_illFormed {i : Instr} (h : i.wellFormed = false) (s : State) : exec i s = .refused .illFormed := by
  cases i with
  | brefs n d =>
    have hn : n = 0#4 := by simpa [Instr.wellFormed] using h
    exact if_pos hn
  | regRead off => exact if_neg (Bool.eq_false_iff.mp h)
  | regWriteOther off v => exact if_neg (Bool.eq_false_iff.mp h)
  | hdr _ _ | ctrl _ | lit _ | brefl _ _ | copy | regWriteCtrl _ | regWriteInLen _ | inWrite _ _ | outRead _ => cases h

/-- R79, log entry 10: each item of the stream asks for its context. -/
theorem exec_not_selected {i : Instr} {c : StreamCtx} {bytes : List Byte} {s : State} (hw : i.wellFormed = true)
    (he : encode i = .stream c bytes) (hx : ¬ s.expects c) : exec i s = .refused .notSelected := by
  cases i with
  | hdr _ _ | ctrl _ | lit _ | brefl _ _ =>
    cases he
    exact selected_of_not _ hx
  | brefs n d =>
    cases he
    have hn : n ≠ 0#4 := by simpa [Instr.wellFormed] using hw
    exact (if_neg hn).trans (selected_of_not _ hx)
  | copy | regRead _ | regWriteCtrl _ | regWriteInLen _ | regWriteOther _ _ | inWrite _ _ | outRead _ => cases he

/-- Settles O6: the guards of the meanings. -/
theorem itemsOutsideTheirContextAreRefused : Obligations.ItemsOutsideTheirContextAreRefused :=
  fun s _ => ⟨fun h => ⟨_, exec_illFormed h s⟩, fun _ _ => exec_not_selected, fun hp => selected_of_not _ hp⟩

/-! ### The header and the window -/

/-- Settles O7: past the magic and the 16 bytes the capacity alone decides. -/
theorem headerIsAccepted : Obligations.HeaderIsAccepted :=
  fun _ _ hp hL hn => (execHdr_of_complete hp hL).trans (if_neg (Nat.not_lt.mpr hn))

/-- After `j` tokens of a group the mask selects bit `7 - j` (R72, R102, R103). -/
theorem tokOf_shifted_mask (c : Byte) {j : Nat} (hj : j < 8) :
    tokOf c (0x80#8 >>> j) = if c.getLsbD (7 - j) then .lit else .ref := by
  have hbit : 0x80#8 >>> j = BitVec.twoPow 8 (7 - j) := by interval_cases j <;> rfl
  have hne : BitVec.twoPow 8 (7 - j) ≠ 0#8 := by interval_cases j <;> decide
  rw [tokOf, hbit, BitVec.and_twoPow]
  by_cases hc : c.getLsbD (7 - j) <;> simp [hc, hne]

/-- Settles O14: the byte is consumed, and the bit that the fresh mask selects is its top bit. -/
theorem controlByteCompletes : Obligations.ControlByteCompletes := by
  intro s c hp hm ho h
  rw [← tokOf_shifted_mask c (j := 0) (by decide)]
  exact execCtrl_of_lt ⟨hp, hm, ho⟩ h

/-- Settles O17: the step is the bit select, which tests bit `7 - j` and shifts the mask on; it is used up after bit 0. -/
theorem groupBitsAreTakenMsbFirst : Obligations.GroupBitsAreTakenMsbFirst := by
  intro s j hj ht hp ho hm
  have hne : s.mask ≠ 0x00#8 := by
    rw [hm]
    interval_cases j <;> decide
  have hnext : (selectBit s.popTurn).mask = 0x80#8 >>> (j + 1) := by
    rw [selectBit_mask, State.popTurn_mask, hm, maskNext, BitVec.shiftRight_add]
  refine ⟨selectBit s.popTurn, step_win_select ht hp ho hne, rfl, hnext, rfl, rfl, ?kind, ?last⟩
  case kind =>
    rw [selectBit_tok, State.popTurn_ctrl, State.popTurn_mask, hm, tokOf_shifted_mask _ hj]
    split <;> simp [*]
  case last =>
    rw [hnext]
    interval_cases j <;> decide

/-! ### The tokens -/

/-- In the context that selects it a back-reference reads its payload bytes, and the copy set-up follows (R79, R111). -/
theorem execBrefs_of_expects {n : BitVec 4} {d : BitVec 12} {s : State} (hn : n ≠ 0#4) (hx : s.expects .ref) :
    execBrefs n d s = consume 2 s fun s₁ => .next (setupCopy d (shortLen n) s₁) :=
  (if_neg hn).trans (selected_of _ hx)

theorem execBrefl_of_expects {d : BitVec 12} {e : Byte} {s : State} (hx : s.expects .ref) :
    execBrefl d e s = consume 3 s fun s₁ => .next (setupCopy d (longLen e) s₁) := selected_of _ hx

/-- R113: the source lies inside the output. -/
theorem consume_setupCopy_inside {k len : Nat} {d : BitVec 12} {s : State} (hin : s.inPtr.toNat + k ≤ s.inLen.toNat)
    (hd : backOf d ≤ s.outPtr.toNat) :
    consume k s (fun s₁ => .next (setupCopy d len s₁)) = .next { s with
      inPtr := s.inPtr + BitVec.ofNat 32 k, copySrc := s.outPtr - BitVec.ofNat 32 (backOf d)
      copyRem := BitVec.ofNat 9 len, phase := .copy } :=
  (consume_ok k s _ hin).trans (congrArg _ (if_neg (Nat.not_lt.mpr hd)))

/-- R113, R144: the source would lie before the output. -/
theorem consume_setupCopy_before {k len : Nat} {d : BitVec 12} {s : State} (hin : s.inPtr.toNat + k ≤ s.inLen.toNat)
    (hd : s.outPtr.toNat < backOf d) :
    consume k s (fun s₁ => .next (setupCopy d len s₁)) =
      .next (raiseError .invalidBackReference { s with inPtr := s.inPtr + BitVec.ofNat 32 k }) :=
  (consume_ok k s _ hin).trans (congrArg _ (if_pos hd))

/-- The 9-bit counter holds every length (R34, R76). -/
theorem toNat_ofNat_copyLen {len : Nat} (h : len ≤ 273) : (BitVec.ofNat 9 len).toNat = len := by
  rw [BitVec.toNat_ofNat]
  omega

/-- Settles O19: two bytes are consumed and the copy is set up; neither register wraps. -/
theorem shortReferenceSetsUpTheCopy : Obligations.ShortReferenceSetsUpTheCopy := by
  intro s n d hn hp hk hin hd
  exact ⟨_, (execBrefs_of_expects hn ⟨hp, hk⟩).trans (consume_setupCopy_inside hin hd), rfl, copySource_toNat hd,
    toNat_ofNat_copyLen ((shortLen_le n).trans (by decide))⟩

/-- Settles O20: three bytes are consumed and the copy is set up; neither register wraps. -/
theorem longReferenceSetsUpTheCopy : Obligations.LongReferenceSetsUpTheCopy := by
  intro s d e hp hk hin hd
  exact ⟨_, (execBrefl_of_expects ⟨hp, hk⟩).trans (consume_setupCopy_inside hin hd), rfl, copySource_toNat hd,
    toNat_ofNat_copyLen (longLen_le e)⟩

/-- Settles O21: the token is consumed before its distance is looked at. -/
theorem referenceBeforeTheOutputFails : Obligations.ReferenceBeforeTheOutputFails := by
  intro s d hp hk hd
  exact ⟨fun n hn hin => (execBrefs_of_expects hn ⟨hp, hk⟩).trans (consume_setupCopy_before hin hd),
    fun e hin => (execBrefl_of_expects ⟨hp, hk⟩).trans (consume_setupCopy_before hin hd)⟩

/-! ### The copy -/

/-- Settles O26: by the invariant the slot of the source holds the output byte there, and the copy step writes it. -/
theorem copyReadsTheOutputByte : Obligations.CopyReadsTheOutputByte := by
  intro s hi hp hr ho
  obtain ⟨hlt, hcap⟩ := hi.copy_room hp ho
  exact ⟨_, copyByte s, hi.outByte_copySrc hp, execCopy_byte hp hr ho hcap, (outByte_copyByte s _).trans (if_pos rfl),
    copyByte_outPtr_toNat hlt⟩

/-! ### STATUS -/

/-- Settles O36: the four codes, one by one. -/
theorem statusWordsAreTheTables : Obligations.StatusWordsAreTheTables := by
  refine ⟨rfl, rfl, rfl, rfl, rfl, rfl, fun e => ?_⟩
  cases e <;> decide

end Sys2Proof.Machine
end

section
/-!
PROOFS. Frames: the registers that each meaning can change (R90, R101, R110 to R113, R120, R130 to R136), whether it goes on or
ends in an error stop, and that none of the engine's touches the input.
-/

namespace Sys2Proof.Machine

/-! ### What is common to the engine's meanings -/

/-- The decode goes on: the engine is not idle and STATUS is as it was. -/
def GoesOn (s t : State) : Prop := t.phase ≠ .idle ∧ t.status = s.status

/-- The decode has ended in an error stop (R140). -/
def Failed (t : State) : Prop := t.phase = .idle ∧ ∃ e, t.status = statusError e

theorem failed_raiseError (e : ErrorKind) (s : State) : Failed (raiseError e s) := ⟨rfl, e, rfl⟩

/-- The configuration and the input are the host's (R21, R25, R36). -/
structure InputKept (s t : State) : Prop where
  cfg : t.cfg = s.cfg
  inLen : t.inLen = s.inLen
  inMem : t.inMem = s.inMem

/-- A frame that names none of the three keeps them. -/
theorem InputKept.of_eq {s t u : State} (h : t = u) (hcfg : u.cfg = s.cfg) (hlen : u.inLen = s.inLen)
    (hmem : u.inMem = s.inMem) : InputKept s t :=
  h ▸ ⟨hcfg, hlen, hmem⟩

theorem InputKept.inByte_eq {s t : State} (h : InputKept s t) (i : Nat) : inByte t i = inByte s i := by
  rw [inByte, inByte, h.cfg, h.inMem]

/-! ### HDR, CTRL, BREFS, BREFL -/

theorem execHdr_frame {m : Magic} {n : Word} {s t : State} (h : execHdr m n s = .next t) : t = { s with
    phase := t.phase, status := t.status, outLen := t.outLen, inPtr := t.inPtr, outPtr := t.outPtr, mask := t.mask } := by
  obtain ⟨-, ⟨-, rfl⟩ | ⟨-, -, rfl⟩ | ⟨-, -, -, rfl⟩ | ⟨-, -, -, rfl⟩ | ⟨-, -, -, rfl⟩⟩ := execHdr_next h <;> rfl

theorem execHdr_inputKept {m : Magic} {n : Word} {s t : State} (h : execHdr m n s = .next t) : InputKept s t :=
  .of_eq (execHdr_frame h) rfl rfl rfl

theorem execHdr_goesOn_or_failed {m : Magic} {n : Word} {s t : State} (h : execHdr m n s = .next t) :
    GoesOn s t ∨ Failed t := by
  obtain ⟨-, ⟨-, rfl⟩ | ⟨-, -, rfl⟩ | ⟨-, -, -, rfl⟩ | ⟨-, -, -, rfl⟩ | ⟨-, -, -, rfl⟩⟩ := execHdr_next h
  · exact .inr (failed_raiseError _ _)
  · exact .inr (failed_raiseError _ _)
  · exact .inr (failed_raiseError _ _)
  · exact .inr (failed_raiseError _ _)
  · exact .inl ⟨nofun, rfl⟩

theorem execCtrl_frame {c : Byte} {s t : State} (h : execCtrl c s = .next t) : t = { s with
    phase := t.phase, status := t.status, inPtr := t.inPtr, ctrl := t.ctrl, mask := t.mask, tok := t.tok } := by
  obtain ⟨-, -, -, ⟨-, rfl⟩ | ⟨-, rfl⟩⟩ := execCtrl_next h <;> rfl

theorem execCtrl_inputKept {c : Byte} {s t : State} (h : execCtrl c s = .next t) : InputKept s t :=
  .of_eq (execCtrl_frame h) rfl rfl rfl

theorem execCtrl_goesOn_or_failed {c : Byte} {s t : State} (h : execCtrl c s = .next t) : GoesOn s t ∨ Failed t := by
  obtain ⟨-, -, -, ⟨-, rfl⟩ | ⟨-, rfl⟩⟩ := execCtrl_next h
  · exact .inl ⟨nofun, rfl⟩
  · exact .inr (failed_raiseError _ _)

theorem RefOutcome.frame {k len : Nat} {d : BitVec 12} {s t : State} (h : RefOutcome k len d s t) : t = { s with
    phase := t.phase, status := t.status, inPtr := t.inPtr, copySrc := t.copySrc, copyRem := t.copyRem } := by
  rcases h with ⟨-, -, rfl⟩ | ⟨-, -, rfl⟩ | ⟨_, -, -, -, rfl⟩ <;> rfl

theorem RefOutcome.inputKept {k len : Nat} {d : BitVec 12} {s t : State} (h : RefOutcome k len d s t) : InputKept s t :=
  .of_eq h.frame rfl rfl rfl

theorem RefOutcome.goesOn_or_failed {k len : Nat} {d : BitVec 12} {s t : State} (h : RefOutcome k len d s t) :
    GoesOn s t ∨ Failed t := by
  rcases h with ⟨-, -, rfl⟩ | ⟨-, -, rfl⟩ | ⟨_, -, -, -, rfl⟩
  · exact .inr (failed_raiseError _ _)
  · exact .inl ⟨nofun, rfl⟩
  · exact .inr (failed_raiseError _ _)

/-- The part of a frame that the four items without output share. -/
theorem statusAndSpaces_kept {s t : State} (hc : GoesOn s t ∨ Failed t) (hin : InputKept s t) (hout : OutputKept s t) :
    (t.status = s.status ∨ t.phase = .idle ∧ ∃ e, t.status = statusError e) ∧
      ∀ a, inByte t a = inByte s a ∧ outByte t a = outByte s a ∧ histRead t a = histRead s a := by
  obtain ⟨hhist, hbytes⟩ := hout
  exact ⟨hc.imp_left fun ⟨_, hs⟩ => hs, fun a => ⟨hin.inByte_eq a, hbytes a, hhist a⟩⟩

/-- Settles O41: the frame of each item, and the part that all four share. -/
theorem itemsWithoutOutputKeepTheRest : Obligations.ItemsWithoutOutputKeepTheRest := by
  intro s t i h
  refine ⟨?hdr, ?ctrl, ?ref, ?shared⟩
  case hdr =>
    rintro ⟨m, n, rfl⟩
    exact execHdr_frame h
  case ctrl =>
    rintro ⟨c, rfl⟩
    exact execCtrl_frame h
  case ref =>
    rintro (⟨n, d, rfl⟩ | ⟨d, e, rfl⟩)
    · obtain ⟨-, -, -, h⟩ := execBrefs_next h
      exact h.frame
    · obtain ⟨-, -, h⟩ := execBrefl_next h
      exact h.frame
  case shared =>
    rintro (⟨m, n, rfl⟩ | ⟨c, rfl⟩ | ⟨n, d, rfl⟩ | ⟨d, e, rfl⟩)
    · exact statusAndSpaces_kept (execHdr_goesOn_or_failed h) (execHdr_inputKept h) (execHdr_outputKept h)
    · exact statusAndSpaces_kept (execCtrl_goesOn_or_failed h) (execCtrl_inputKept h) (execCtrl_outputKept h)
    · obtain ⟨-, -, -, h⟩ := execBrefs_next h
      exact statusAndSpaces_kept h.goesOn_or_failed h.inputKept h.outputKept
    · obtain ⟨-, -, h⟩ := execBrefl_next h
      exact statusAndSpaces_kept h.goesOn_or_failed h.inputKept h.outputKept

/-! ### LIT, COPY -/

theorem execLit_frame {v : Byte} {s t : State} (h : execLit v s = .next t) : t = { s with
    phase := t.phase, status := t.status, inPtr := t.inPtr, outPtr := t.outPtr, outMem := t.outMem, hist := t.hist } := by
  obtain ⟨-, -, ⟨-, -, rfl⟩ | ⟨-, rfl⟩⟩ := execLit_next h <;> rfl

theorem execLit_inputKept {v : Byte} {s t : State} (h : execLit v s = .next t) : InputKept s t :=
  .of_eq (execLit_frame h) rfl rfl rfl

theorem execLit_goesOn_or_failed {v : Byte} {s t : State} (h : execLit v s = .next t) : GoesOn s t ∨ Failed t := by
  obtain ⟨-, -, ⟨-, -, rfl⟩ | ⟨-, rfl⟩⟩ := execLit_next h
  · exact .inl ⟨nofun, rfl⟩
  · exact .inr (failed_raiseError _ _)

theorem execCopy_frame {s t : State} (h : execCopy s = .next t) : t = { s with
    phase := t.phase, copySrc := t.copySrc, copyRem := t.copyRem, outPtr := t.outPtr, outMem := t.outMem
    hist := t.hist } := by
  obtain ⟨-, ⟨-, rfl⟩ | ⟨-, -, -, rfl⟩⟩ := execCopy_next h <;> rfl

theorem execCopy_inputKept {s t : State} (h : execCopy s = .next t) : InputKept s t :=
  .of_eq (execCopy_frame h) rfl rfl rfl

/-- A copy step is no stop. -/
theorem execCopy_goesOn {s t : State} (h : execCopy s = .next t) : GoesOn s t := by
  obtain ⟨hp, ⟨-, rfl⟩ | ⟨-, -, -, rfl⟩⟩ := execCopy_next h
  · exact ⟨nofun, rfl⟩
  · exact ⟨by simp [hp], rfl⟩

/-- What the two output items can write: where the cursor stays, nothing; else the byte and the slot at the cursor. -/
theorem output_frame {s t : State} (h : OutputKept s t ∨ OutputWritten s t) :
    (∀ a, a ≠ s.outPtr.toNat → outByte t a = outByte s a) ∧
    (∀ j, j ≠ histSlot s.outPtr.toNat → histRead t j = histRead s j) ∧
    (t.outPtr = s.outPtr → ∀ a, outByte t a = outByte s a ∧ histRead t a = histRead s a) := by
  obtain ⟨hhist, hout⟩ | ⟨v, hout, hhist, hptr⟩ := h
  · exact ⟨fun a _ => hout a, fun j _ => hhist j, fun _ a => ⟨hout a, hhist a⟩⟩
  · refine ⟨fun a ha => (hout a).trans (if_neg ha), fun j hj => (hhist j).trans (if_neg hj), fun hstay => ?_⟩
    have hmoved : s.outPtr + 1#32 ≠ s.outPtr := by simp
    exact absurd (hptr.symm.trans hstay) hmoved

/-- Settles O42: the frame of each item, and what an output byte leaves alone. -/
theorem outputItemsWriteOnlyAtTheCursor : Obligations.OutputItemsWriteOnlyAtTheCursor := by
  intro s t i h
  refine ⟨?lit, ?copy, ?spaces⟩
  case lit =>
    rintro ⟨v, rfl⟩
    exact ⟨execLit_frame h, (execLit_goesOn_or_failed h).imp_left fun ⟨_, hs⟩ => hs⟩
  case copy =>
    rintro rfl
    exact execCopy_frame h
  case spaces =>
    rintro (⟨v, rfl⟩ | rfl)
    · exact ⟨(execLit_inputKept h).inByte_eq, output_frame (execLit_output h)⟩
    · exact ⟨(execCopy_inputKept h).inByte_eq, output_frame (execCopy_output h)⟩

/-! ### The host's operations -/

/-- Settles O43: each operation changes what its row names; of the writes only START reaches more, and it leaves the input and
HIST alone. -/
theorem hostOperationsKeepTheRest : Obligations.HostOperationsKeepTheRest := by
  intro s t i h
  refine ⟨?read, ?inLen, ?other, ?inWrite, ?ctrl⟩
  case read =>
    rintro (⟨off, rfl⟩ | ⟨k, rfl⟩)
    · obtain ⟨-, rfl⟩ := execRegRead_next h
      rfl
    · obtain ⟨-, -, b, -, rfl⟩ := execOutRead_next h
      rfl
  case inLen =>
    rintro ⟨v, rfl⟩
    obtain ⟨-, rfl⟩ | ⟨-, rfl⟩ := execRegWriteInLen_next h <;> rfl
  case other =>
    rintro ⟨off, v, rfl⟩
    obtain ⟨-, rfl⟩ := execRegWriteOther_next (v := v) h
    rfl
  case inWrite =>
    rintro k b rfl
    obtain ⟨-, -, rfl⟩ := execInWrite_next h
    exact ⟨rfl, fun a ha => inByte_write_other s b ha⟩
  case ctrl =>
    rintro ⟨v, rfl⟩
    obtain ⟨-, -, rfl⟩ | ⟨-, rfl⟩ := execRegWriteCtrl_next h <;> exact ⟨rfl, rfl, rfl, rfl, rfl, fun _ => ⟨rfl, rfl⟩⟩

end Sys2Proof.Machine
end

section
/-!
PROOFS. Rules of the whole machine (10_state.md, 44_host.md, 60_exceptions.md, 70_reset_and_hazards.md): how a decode
begins, goes on and ends, and what the host can reach meanwhile (R24 to R27, R37, R64, R147, R149, R161, R162).
-/

namespace Sys2Proof.Machine

/-! ### The input -/

theorem engineStep_inputKept {s t : State} (h : engineStep s = .next t) : InputKept s t := by
  rcases engineStep_next h with ⟨-, rfl⟩ | ⟨-, m, n, h⟩ | ⟨-, -, rfl⟩ | ⟨-, -, -, c, h⟩ | ⟨-, -, -, rfl⟩ |
    ⟨-, -, v, h⟩ | ⟨-, -, n, d, h⟩ | ⟨-, -, d, e, h⟩ | ⟨-, h⟩
  · exact ⟨rfl, rfl, rfl⟩
  · exact execHdr_inputKept h
  · exact ⟨rfl, rfl, rfl⟩
  · exact execCtrl_inputKept h
  · exact ⟨rfl, rfl, rfl⟩
  · exact execLit_inputKept h
  · obtain ⟨-, -, -, h⟩ := execBrefs_next h
    exact h.inputKept
  · obtain ⟨-, -, h⟩ := execBrefl_next h
    exact h.inputKept
  · exact execCopy_inputKept h

/-- The host has no operation on the configuration (R21). -/
theorem hostStep_cfg {a : HostAccess} {s t : State} (h : hostStep a s = .next t) : t.cfg = s.cfg := by
  rcases hostStep_next h with ⟨off, h⟩ | ⟨v, -, h⟩ | ⟨v, h⟩ | rfl | ⟨i, b, h⟩ | ⟨i, h⟩
  · obtain ⟨-, rfl⟩ := execRegRead_next h
    rfl
  · obtain ⟨-, -, rfl⟩ | ⟨-, rfl⟩ := execRegWriteCtrl_next h <;> rfl
  · obtain ⟨-, rfl⟩ | ⟨-, rfl⟩ := execRegWriteInLen_next h <;> rfl
  · rfl
  · obtain ⟨-, -, rfl⟩ := execInWrite_next h
    rfl
  · obtain ⟨-, -, b, -, rfl⟩ := execOutRead_next h
    rfl

/-- Settles O45: the engine only reads its input, the host's writes do not land while BUSY, and a reset keeps the
configuration. -/
theorem inputIsFrozenWhileBusy : Obligations.InputIsFrozenWhileBusy := by
  intro s t h
  obtain ht | ⟨a, ts, ht⟩ | ⟨ts, ht⟩ := turn_cases s
  · rw [step_engine ht] at h
    have hk := engineStep_inputKept h
    exact ⟨hk.cfg, fun _ _ => ⟨hk.inLen, hk.inByte_eq⟩⟩
  · rw [step_host ht] at h
    refine ⟨hostStep_cfg (s := { s with turns := ts }) h, fun hb _ => ?_⟩
    obtain ⟨r, d, rfl⟩ := hostStep_busy (s := { s with turns := ts }) hb h
    exact ⟨rfl, fun _ => rfl⟩
  · rw [step_reset ht] at h
    cases h
    exact ⟨rfl, fun _ hr => absurd (congrArg List.head? ht) hr⟩

/-- Settles O48: what a host operation can do to a running engine is said once, by `hostStep_busy`. -/
theorem hostNeverDisturbsADecode : Obligations.HostNeverDisturbsADecode := by
  intro s t a ts ht hb h
  rw [step_host ht] at h
  obtain ⟨r, d, rfl⟩ := hostStep_busy (s := { s with turns := ts }) hb h
  rfl

/-! ### The phase and STATUS -/

/-- What an engine step does to the phase and STATUS: nothing in IDLE; else the success stop, a step that goes on, or an error
stop. -/
theorem engineStep_control {s t : State} (h : engineStep s = .next t) :
    (s.phase = .idle ∧ t = s) ∨
    (s.phase ≠ .idle ∧ ((s.phase = .win ∧ s.outPtr = s.outLen ∧ t = finish s) ∨ GoesOn s t ∨ Failed t)) := by
  rcases engineStep_next h with ⟨hp, rfl⟩ | ⟨hp, m, n, h⟩ | ⟨hp, ho, rfl⟩ | ⟨hp, -, -, c, h⟩ | ⟨hp, -, -, rfl⟩ |
    ⟨hp, -, v, h⟩ | ⟨hp, -, n, d, h⟩ | ⟨hp, -, d, e, h⟩ | ⟨hp, h⟩
  · exact .inl ⟨hp, rfl⟩
  all_goals refine .inr ⟨by simp [hp], ?_⟩
  · exact .inr (execHdr_goesOn_or_failed h)
  · exact .inl ⟨hp, ho, rfl⟩
  · exact .inr (execCtrl_goesOn_or_failed h)
  · exact .inr (.inl ⟨nofun, rfl⟩)
  · exact .inr (execLit_goesOn_or_failed h)
  · obtain ⟨-, -, -, h⟩ := execBrefs_next h
    exact .inr h.goesOn_or_failed
  · obtain ⟨-, -, h⟩ := execBrefl_next h
    exact .inr h.goesOn_or_failed
  · exact .inr (.inl (execCopy_goesOn h))

/-- What a host operation does to the phase and STATUS: START on an idle engine begins a decode, nothing else reaches them. -/
theorem hostStep_control {a : HostAccess} {s t : State} (h : hostStep a s = .next t) :
    (t.phase = s.phase ∧ t.status = s.status) ∨
    (s.phase = .idle ∧ t = startDecode s ∧ ∃ v, a = .regWrite .w32 0x00#32 v ∧ v.getLsbD 0 = true) := by
  rcases hostStep_next h with ⟨off, h⟩ | ⟨v, ha, h⟩ | ⟨v, h⟩ | rfl | ⟨i, b, h⟩ | ⟨i, h⟩
  · obtain ⟨-, rfl⟩ := execRegRead_next h
    exact .inl ⟨rfl, rfl⟩
  · obtain ⟨hv, hp, rfl⟩ | ⟨-, rfl⟩ := execRegWriteCtrl_next h
    · exact .inr ⟨hp, rfl, v, ha, hv⟩
    · exact .inl ⟨rfl, rfl⟩
  · obtain ⟨-, rfl⟩ | ⟨-, rfl⟩ := execRegWriteInLen_next h <;> exact .inl ⟨rfl, rfl⟩
  · exact .inl ⟨rfl, rfl⟩
  · obtain ⟨-, -, rfl⟩ := execInWrite_next h
    exact .inl ⟨rfl, rfl⟩
  · obtain ⟨-, -, b, -, rfl⟩ := execOutRead_next h
    exact .inl ⟨rfl, rfl⟩

/-- Settles O46: the engine waits in IDLE, a reset goes there, and of the host's operations only START leaves it. -/
theorem onlyStartLeavesIdle : Obligations.OnlyStartLeavesIdle := by
  intro s t h hs ht
  obtain hturn | ⟨a, ts, hturn⟩ | ⟨ts, hturn⟩ := turn_cases s
  · rw [step_idle hturn hs] at h
    cases h
    exact absurd hs ht
  · rw [step_host hturn] at h
    obtain ⟨hp, -⟩ | ⟨-, rfl, v, rfl, hv⟩ := hostStep_control h
    · exact absurd (hp.trans hs) ht
    · exact ⟨rfl, rfl, v, ts, hturn, hv⟩
  · rw [step_reset hturn] at h
    cases h
    exact absurd rfl ht

/-- Settles O47: a step of the engine that does not go on is one of the two stops, and no host operation stops it. -/
theorem onlyTheEndOrAResetStopsADecode : Obligations.OnlyTheEndOrAResetStopsADecode := by
  intro s t h hs ht
  obtain hturn | ⟨a, ts, hturn⟩ | ⟨ts, hturn⟩ := turn_cases s
  · rw [step_engine hturn] at h
    refine .inr ⟨hturn, ?_⟩
    obtain ⟨hidle, -⟩ | ⟨-, ⟨hp, ho, rfl⟩ | ⟨hgo, -⟩ | ⟨-, hfail⟩⟩ := engineStep_control h
    · exact absurd hidle hs
    · exact .inl ⟨hp, ho, rfl⟩
    · exact absurd ht hgo
    · exact .inr hfail
  · rw [step_host hturn] at h
    obtain ⟨r, d, rfl⟩ := hostStep_busy (s := { s with turns := ts }) hs h
    exact absurd ht hs
  · exact .inl (congrArg List.head? hturn)

theorem Failed.statusLegal {t : State} (h : Failed t) : t.statusLegal := by
  obtain ⟨hp, e, he⟩ := h
  refine (if_pos hp).mpr ?_
  rw [he]
  cases e <;> decide

/-- R24, without the rest of the invariant. -/
theorem step_statusLegal {s t : State} (hs : s.statusLegal) (h : step s = .next t) : t.statusLegal := by
  obtain hturn | ⟨a, ts, hturn⟩ | ⟨ts, hturn⟩ := turn_cases s
  · rw [step_engine hturn] at h
    obtain ⟨-, rfl⟩ | ⟨hb, ⟨-, -, rfl⟩ | ⟨hgo, hst⟩ | hfail⟩ := engineStep_control h
    · exact hs
    · exact (if_pos rfl).mpr (by rw [finish_status]; decide)
    · exact statusLegal_of_busy hgo (hst.trans ((if_neg hb).mp hs))
    · exact hfail.statusLegal
  · rw [step_host hturn] at h
    obtain ⟨hp, hst⟩ | ⟨-, rfl, -⟩ := hostStep_control h
    · rw [State.statusLegal, hp, hst]
      exact hs
    · exact statusLegal_of_busy nofun rfl
  · rw [step_reset hturn] at h
    cases h
    exact (if_pos rfl).mpr (by simp)

/-- The bits of each value that STATUS can hold while idle (R24, R141). -/
theorem statusBits_idle : ∀ w ∈ [0x00000000#32, 0x00000002#32, 0x00000014#32, 0x00000024#32, 0x00000034#32, 0x00000044#32],
    busyBit w = false ∧ (doneBit w = true → errBit w = false) ∧ (errBit w = false → errCodeField w = 0#4) := by
  intro w hw
  simp only [List.mem_cons, List.not_mem_nil, or_false] at hw
  rcases hw with rfl | rfl | rfl | rfl | rfl | rfl <;> decide

/-- Settles O52: every stop and START sets a legal word, and each of the seven words shows its bits. -/
theorem statusStaysALegalValue : Obligations.StatusStaysALegalValue := by
  refine ⟨resetMeetsTheInvariant.status_legal, fun s t => step_statusLegal, fun s hs => ?bits⟩
  case bits =>
    by_cases hp : s.phase = .idle
    · obtain ⟨hbusy, hdone, hcode⟩ := statusBits_idle s.status ((if_pos hp).mp hs)
      exact ⟨by simp [hbusy, hp], fun h => ⟨hbusy, hdone h⟩, fun _ => hbusy, hcode⟩
    · rw [(if_neg hp).mp hs]
      exact ⟨iff_of_true rfl hp, by decide, by decide, by decide⟩

/-! ### What a stop leaves -/

/-- R147, row by row: what the step from `s` into the stop `t` leaves for the host to read. -/
inductive StopRecord (s t : State) : Prop where
  | done (status : t.status = 0x02#32) (inPtr : t.inPtr = s.inPtr) (outPtr : t.outPtr = t.outLen)
      (outLen : t.outLen = s.outLen)
  | wrongMagic (status : t.status = 0x14#32) (inPtr : t.inPtr = 0#32) (outPtr : t.outPtr = 0#32) (outLen : t.outLen = 0#32)
  | headerCut (status : t.status = 0x24#32) (phase : s.phase = .hdr) (inPtr : t.inPtr = 0#32) (outPtr : t.outPtr = 0#32)
      (outLen : t.outLen = 0#32)
  | payloadCut (status : t.status = 0x24#32) (payload : s.inPayload) (inPtr : t.inPtr = t.inLen)
      (outPtr : t.outPtr = s.outPtr) (outLen : t.outLen = s.outLen)
  | sourceBefore (status : t.status = 0x34#32) (ref : s.expects .ref)
      (inPtr : t.inPtr = s.inPtr + 2#32 ∨ t.inPtr = s.inPtr + 3#32) (outPtr : t.outPtr = s.outPtr)
      (outLen : t.outLen = s.outLen)
  | overCapacity (status : t.status = 0x44#32) (inPtr : t.inPtr = 0#32) (outPtr : t.outPtr = 0#32)
      (outLen : t.cfg.outCap < t.outLen.toNat)

/-- A payload read that runs out of input has moved the cursor to `L` (R114, R143). -/
theorem inPtr_eq_inLen_of_cut {s : State} {j : Nat} (hin : s.inPtr.toNat ≤ s.inLen.toNat)
    (hj : j = 0 ∨ s.inPtr.toNat + j ≤ s.inLen.toNat) (hend : s.inLen.toNat ≤ s.inPtr.toNat + j) :
    s.inPtr + BitVec.ofNat 32 j = s.inLen := by
  have hle : s.inPtr.toNat + j ≤ s.inLen.toNat := hj.elim (fun h0 => h0 ▸ hin) id
  exact BitVec.eq_of_toNat_eq ((toNat_add_ofNat hle).trans (hle.antisymm hend))

theorem execHdr_stopRecord {m : Magic} {n : Word} {s t : State} (hi : s.Inv) (h : execHdr m n s = .next t)
    (ht : t.phase = .idle) : StopRecord s t := by
  obtain ⟨hp, h⟩ := execHdr_next h
  obtain ⟨hin, hout, hlen, -⟩ := hi.hdr_fresh hp
  rcases h with ⟨-, rfl⟩ | ⟨-, -, rfl⟩ | ⟨-, -, -, rfl⟩ | ⟨-, -, hn, rfl⟩ | ⟨-, -, -, rfl⟩
  · exact .headerCut rfl hp hin hout hlen
  · exact .wrongMagic rfl hin hout hlen
  · exact .headerCut rfl hp hin hout hlen
  · exact .overCapacity rfl hin hout hn
  · cases ht

/-- No byte is left of a control byte or a literal. -/
theorem payloadCut_stopRecord {s : State} (hi : s.Inv) (hs : s.inPayload) (hend : s.inLen.toNat ≤ s.inPtr.toNat) :
    StopRecord s (raiseError .truncatedInput s) :=
  .payloadCut rfl hs (BitVec.eq_of_toNat_eq ((hi.in_range hs.ne_idle).antisymm hend)) rfl rfl

theorem execCtrl_stopRecord {c : Byte} {s t : State} (hi : s.Inv) (h : execCtrl c s = .next t) (ht : t.phase = .idle) :
    StopRecord s t := by
  obtain ⟨hp, -, -, ⟨-, rfl⟩ | ⟨hend, rfl⟩⟩ := execCtrl_next h
  · cases ht
  · exact payloadCut_stopRecord hi (.inl hp) hend

theorem execLit_stopRecord {v : Byte} {s t : State} (hi : s.Inv) (h : execLit v s = .next t) (ht : t.phase = .idle) :
    StopRecord s t := by
  obtain ⟨hp, -, ⟨-, -, rfl⟩ | ⟨hend, rfl⟩⟩ := execLit_next h
  · cases ht
  · exact payloadCut_stopRecord hi (.inr (.inl hp)) hend

theorem RefOutcome.stopRecord {k len : Nat} {d : BitVec 12} {s t : State} (hi : s.Inv) (hx : s.expects .ref)
    (hk : k = 2 ∨ k = 3) (h : RefOutcome k len d s t) (ht : t.phase = .idle) : StopRecord s t := by
  have hs : s.inPayload := .inr (.inl hx.1)
  rcases h with ⟨-, -, rfl⟩ | ⟨-, -, rfl⟩ | ⟨j, -, hj, hend, rfl⟩
  · refine .sourceBefore rfl hx ?_ rfl rfl
    rcases hk with rfl | rfl
    · exact .inl rfl
    · exact .inr rfl
  · cases ht
  · exact .payloadCut rfl hs (inPtr_eq_inLen_of_cut (hi.in_range hs.ne_idle) hj hend) rfl rfl

theorem engineStep_stopRecord {s t : State} (hi : s.Inv) (h : engineStep s = .next t) (hs : s.phase ≠ .idle)
    (ht : t.phase = .idle) : StopRecord s t := by
  rcases engineStep_next h with ⟨hp, -⟩ | ⟨-, m, n, h⟩ | ⟨-, ho, rfl⟩ | ⟨-, -, -, c, h⟩ | ⟨-, -, -, rfl⟩ |
    ⟨-, -, v, h⟩ | ⟨hp, hk, n, d, h⟩ | ⟨hp, hk, d, e, h⟩ | ⟨-, h⟩
  · exact absurd hp hs
  · exact execHdr_stopRecord hi h ht
  · exact .done rfl rfl ho rfl
  · exact execCtrl_stopRecord hi h ht
  · cases ht
  · exact execLit_stopRecord hi h ht
  · obtain ⟨-, -, -, h⟩ := execBrefs_next h
    exact h.stopRecord hi ⟨hp, hk⟩ (.inl rfl) ht
  · obtain ⟨-, -, h⟩ := execBrefl_next h
    exact h.stopRecord hi ⟨hp, hk⟩ (.inr rfl) ht
  · obtain ⟨hgo, -⟩ := execCopy_goesOn h
    exact absurd ht hgo

/-- Settles O49: only the engine's step stops a decode, and its record is one of the six rows. -/
theorem everyStopRecordsItsCursors : Obligations.EveryStopRecordsItsCursors := by
  intro s t hi h hs ht hr
  obtain hturn | ⟨a, ts, hturn⟩ | ⟨ts, hturn⟩ := turn_cases s
  · rw [step_engine hturn] at h
    cases engineStep_stopRecord (s := s.popTurn) { hi with } h hs ht with
    | done hst hin hout hlen => exact .inl ⟨hst, hin, hout, hlen⟩
    | wrongMagic hst hin hout hlen => exact .inr (.inl ⟨hst, hin, hout, hlen⟩)
    | headerCut hst hp hin hout hlen => exact .inr (.inr (.inl ⟨hst, hp, hin, hout, hlen⟩))
    | payloadCut hst hp hin hout hlen => exact .inr (.inr (.inr (.inl ⟨hst, hp, hin, hout, hlen⟩)))
    | sourceBefore hst hx hin hout hlen => exact .inr (.inr (.inr (.inr (.inl ⟨hst, hx, hin, hout, hlen⟩))))
    | overCapacity hst hin hout hlen => exact .inr (.inr (.inr (.inr (.inr ⟨hst, hin, hout, hlen⟩))))
  · rw [step_host hturn] at h
    obtain ⟨r, d, rfl⟩ := hostStep_busy (s := { s with turns := ts }) hs h
    exact absurd ht hs
  · exact absurd (congrArg List.head? hturn) hr

/-! ### The cursors -/

/-- One step of a payload: at most three bytes below `L` are consumed and at most one below `N` is written (R26, R27). -/
structure Advances (s t : State) : Prop where
  inPtr : ∃ k, k ≤ 3 ∧ s.inPtr.toNat + k ≤ s.inLen.toNat ∧ t.inPtr = s.inPtr + BitVec.ofNat 32 k
  outPtr : t.outPtr = s.outPtr ∨ s.outPtr.toNat < s.outLen.toNat ∧ t.outPtr = s.outPtr + 1#32
  inLen : t.inLen = s.inLen
  outLen : t.outLen = s.outLen

/-- No byte is consumed. -/
theorem inPtr_advances_zero {s t : State} (hin : s.inPtr.toNat ≤ s.inLen.toNat) (h : t.inPtr = s.inPtr) :
    ∃ k, k ≤ 3 ∧ s.inPtr.toNat + k ≤ s.inLen.toNat ∧ t.inPtr = s.inPtr + BitVec.ofNat 32 k :=
  ⟨0, Nat.zero_le 3, hin, h.trans (BitVec.add_zero _).symm⟩

theorem execCtrl_advances {c : Byte} {s t : State} (hin : s.inPtr.toNat ≤ s.inLen.toNat) (h : execCtrl c s = .next t) :
    Advances s t := by
  obtain ⟨-, -, -, ⟨hlt, rfl⟩ | ⟨-, rfl⟩⟩ := execCtrl_next h
  · exact ⟨⟨1, by decide, hlt, rfl⟩, .inl rfl, rfl, rfl⟩
  · exact ⟨inPtr_advances_zero hin rfl, .inl rfl, rfl, rfl⟩

theorem execLit_advances {v : Byte} {s t : State} (hi : s.Inv) (hin : s.inPtr.toNat ≤ s.inLen.toNat)
    (h : execLit v s = .next t) : Advances s t := by
  obtain ⟨hp, -, ⟨hlt, -, rfl⟩ | ⟨-, rfl⟩⟩ := execLit_next h
  · exact ⟨⟨1, by decide, hlt, rfl⟩, .inr ⟨hi.tok_room hp, rfl⟩, rfl, rfl⟩
  · exact ⟨inPtr_advances_zero hin rfl, .inl rfl, rfl, rfl⟩

theorem RefOutcome.advances {k len : Nat} {d : BitVec 12} {s t : State} (hin : s.inPtr.toNat ≤ s.inLen.toNat) (hk : k ≤ 3)
    (h : RefOutcome k len d s t) : Advances s t := by
  rcases h with ⟨hle, -, rfl⟩ | ⟨hle, -, rfl⟩ | ⟨j, hlt, hj, -, rfl⟩
  · exact ⟨⟨k, hk, hle, rfl⟩, .inl rfl, rfl, rfl⟩
  · exact ⟨⟨k, hk, hle, rfl⟩, .inl rfl, rfl, rfl⟩
  · exact ⟨⟨j, hlt.le.trans hk, hj.elim (fun h0 => h0 ▸ hin) id, rfl⟩, .inl rfl, rfl, rfl⟩

theorem execCopy_advances {s t : State} (hi : s.Inv) (hin : s.inPtr.toNat ≤ s.inLen.toNat) (h : execCopy s = .next t) :
    Advances s t := by
  obtain ⟨hp, ⟨-, rfl⟩ | ⟨-, ho, -, rfl⟩⟩ := execCopy_next h
  · exact ⟨inPtr_advances_zero hin rfl, .inl rfl, rfl, rfl⟩
  · obtain ⟨hlt, -⟩ := hi.copy_room hp ho
    exact ⟨inPtr_advances_zero hin rfl, .inr ⟨hlt, rfl⟩, rfl, rfl⟩

theorem engineStep_advances {s t : State} (hi : s.Inv) (hs : s.inPayload) (h : engineStep s = .next t) : Advances s t := by
  have hin := hi.in_range hs.ne_idle
  rcases engineStep_next h with ⟨-, rfl⟩ | ⟨hp, -⟩ | ⟨-, -, rfl⟩ | ⟨-, -, -, c, h⟩ | ⟨-, -, -, rfl⟩ |
    ⟨-, -, v, h⟩ | ⟨-, -, n, d, h⟩ | ⟨-, -, d, e, h⟩ | ⟨-, h⟩
  · exact ⟨inPtr_advances_zero hin rfl, .inl rfl, rfl, rfl⟩
  · exact absurd hp hs.ne_hdr
  · exact ⟨inPtr_advances_zero hin rfl, .inl rfl, rfl, rfl⟩
  · exact execCtrl_advances hin h
  · exact ⟨inPtr_advances_zero hin rfl, .inl rfl, rfl, rfl⟩
  · exact execLit_advances hi hin h
  · obtain ⟨-, -, -, h⟩ := execBrefs_next h
    exact h.advances hin (by decide)
  · obtain ⟨-, -, h⟩ := execBrefl_next h
    exact h.advances hin le_rfl
  · exact execCopy_advances hi hin h

/-- The cursors as numbers: neither wraps (R57). -/
theorem Advances.toNat_bounds {s t : State} (h : Advances s t) :
    s.inPtr.toNat ≤ t.inPtr.toNat ∧ t.inPtr.toNat ≤ s.inPtr.toNat + 3 ∧ t.inPtr.toNat ≤ t.inLen.toNat ∧
    s.outPtr.toNat ≤ t.outPtr.toNat ∧ t.outPtr.toNat ≤ s.outPtr.toNat + 1 := by
  obtain ⟨k, hk, hle, hin⟩ := h.inPtr
  have hq : t.inPtr.toNat = s.inPtr.toNat + k := (congrArg BitVec.toNat hin).trans (toNat_add_ofNat hle)
  have hout : t.outPtr.toNat = s.outPtr.toNat ∨ t.outPtr.toNat = s.outPtr.toNat + 1 := by
    rcases h.outPtr with ho | ⟨hlt, ho⟩
    · exact .inl (congrArg BitVec.toNat ho)
    · exact .inr ((congrArg BitVec.toNat ho).trans (toNat_add_one hlt (word_le _)))
  rw [h.inLen]
  omega

/-- Settles O50: the engine's step advances the cursors, the host's leaves them, and the invariant holds after both. -/
theorem cursorsOnlyAdvance : Obligations.CursorsOnlyAdvance := by
  intro s t hi h hs hr
  have hi' := step_inv hi h
  obtain hturn | ⟨a, ts, hturn⟩ | ⟨ts, hturn⟩ := turn_cases s
  · rw [step_engine hturn] at h
    have hadv := engineStep_advances (s := s.popTurn) { hi with } hs h
    obtain ⟨hin, hin3, hinL, hout, hout1⟩ := hadv.toNat_bounds
    exact ⟨hin, hin3, hinL, hout, hout1, hi'.out_range, hadv.outLen, fun hf => absurd (hturn.symm.trans hf) (by decide)⟩
  · rw [step_host hturn] at h
    obtain ⟨r, d, rfl⟩ := hostStep_busy (s := { s with turns := ts }) hs.ne_idle h
    exact ⟨le_rfl, Nat.le_add_right _ 3, hi.in_range hs.ne_idle, le_rfl, Nat.le_add_right _ 1, hi.out_range, rfl,
      fun _ => ⟨rfl, rfl⟩⟩
  · exact absurd (congrArg List.head? hturn) hr

/-! ### The output -/

/-- A byte written at the cursor is none of those written before, which lie below it (R27, R37). -/
theorem OutputWritten.keeps {s t : State} (hi : s.Inv) (h : OutputWritten s t) {i : Nat} {b : Byte}
    (hb : outByte s i = some b) : outByte t i = some b := by
  obtain ⟨v, hout, -, -⟩ := h
  have below : i < s.outPtr.toNat := (hi.out_written i).mp (by rw [hb]; rfl)
  rw [hout i, if_neg below.ne, hb]

/-- Settles O51: the engine writes above what was written, and the host takes the output away only by START from IDLE. -/
theorem outputBytesAreWrittenOnce : Obligations.OutputBytesAreWrittenOnce := by
  intro s t hi h
  obtain hturn | ⟨a, ts, hturn⟩ | ⟨ts, hturn⟩ := turn_cases s
  · rw [step_engine hturn] at h
    refine .inr (.inr fun i b hb => ?_)
    obtain ⟨-, hout⟩ | hw := engineStep_output h
    · exact (hout i).trans hb
    · exact hw.keeps (s := s.popTurn) { hi with } hb
  · rw [step_host hturn] at h
    by_cases hp : s.phase = .idle
    · obtain ⟨-, hout⟩ | ⟨-, -, hstart⟩ := hostStep_output h
      · exact .inr (.inr fun i b hb => (hout i).trans hb)
      · exact .inr (.inl ⟨hp, hstart⟩)
    · obtain ⟨r, d, rfl⟩ := hostStep_busy (s := { s with turns := ts }) hp h
      exact .inr (.inr fun i b hb => hb)
  · exact .inl (congrArg List.head? hturn)

end Sys2Proof.Machine
end

section
/-!
PROOFS. Reserved header bytes (R93): the fetch of a header reads nothing from index 8 on, and the meaning of a header
does not look at IN, so the whole HDR step is the same under every change of those bytes.
-/

namespace Sys2Proof.Machine

/-- A fetch depends on `L` and on the bytes it reaches. -/
theorem fetchBytes_congr {s s' : State} {p k b : Nat} (hL : s'.inLen = s.inLen) (hb : ∀ i, i < b → inByte s' i = inByte s i)
    (hk : p + k ≤ b) : fetchBytes s' p k = fetchBytes s p k := by
  induction k generalizing p with
  | zero => rfl
  | succ k ih =>
    have first : fetchByte s' p = fetchByte s p := by rw [fetchByte, fetchByte, hL, hb p (by omega)]
    rw [fetchBytes, fetchBytes, first, ih (by omega)]

/-- R93: a header's fetch ends at index 8. -/
theorem fetchItem_hdr_congr {s s' : State} (hcfg : s'.cfg = s.cfg) (hL : s'.inLen = s.inLen)
    (hb : ∀ i, i < 8 → inByte s' i = inByte s i) : fetchItem .hdr s' = fetchItem .hdr s := by
  have tag := fetchBytes_congr (p := 0) (k := 4) hL hb (by decide)
  have len := fetchBytes_congr (p := 4) (k := 4) hL hb (by decide)
  simp only [fetchItem, fetchHdr, hL, hcfg, tag, len]

/-- The header's operands are all that its meaning has of the input: it answers the same in another input memory. -/
theorem execHdr_setInMem {m : Magic} {n : Word} {s t : State} (h : execHdr m n s = .next t) (mem : List Host.Cell) :
    execHdr m n { s with inMem := mem } = .next { t with inMem := mem } := by
  obtain ⟨hp, ⟨hL, rfl⟩ | ⟨hL, hm, rfl⟩ | ⟨-, hL, rfl, rfl⟩ | ⟨hL, rfl, hn, rfl⟩ | ⟨hL, rfl, hn, rfl⟩⟩ := execHdr_next h
  · exact execHdr_of_short hp hL
  · exact execHdr_of_wrong_magic hp hL hm
  · exact execHdr_of_cut (s := { s with inMem := mem }) hp hL
  · exact (execHdr_of_complete (s := { s with inMem := mem }) hp hL).trans (if_pos hn)
  · exact (execHdr_of_complete (s := { s with inMem := mem }) hp hL).trans (if_neg (Nat.not_lt.mpr hn))

theorem execHdr_ne_fault (m : Magic) (n : Word) (s : State) (r : Fault) : execHdr m n s ≠ .fault r := by
  rw [execHdr, selected]
  split_ifs <;> exact nofun

/-- Settles O11: the fetch is the same, so either both steps fault at one index or both run one header, whose meaning
leaves the input memory out. -/
theorem reservedHeaderBytesAreNotRead : Obligations.ReservedHeaderBytesAreNotRead := by
  refine ⟨?rule, ?step⟩
  case rule =>
    intro s s' hp hp' hcfg hL hb
    rw [nextMove_of_expects (c := .hdr) hp', nextMove_of_expects (c := .hdr) hp, fetchMove, fetchMove,
      fetchItem_hdr_congr hcfg hL hb]
  case step =>
    intro s mem ht hp hb
    have hf : fetchItem .hdr { s with inMem := mem } = fetchItem .hdr s := fetchItem_hdr_congr rfl rfl hb
    cases hfs : fetchItem .hdr s with
    | error j =>
      rw [step_of_fetchItem_error (c := .hdr) ht hp hfs,
        step_of_fetchItem_error (s := { s with inMem := mem }) (c := .hdr) ht hp (hf.trans hfs)]
      exact ⟨nofun, fun _ h => h⟩
    | ok bytes =>
      cases hd : decodeStream .hdr bytes with
      | error e =>
        rw [step_of_decode_error (c := .hdr) (e := e) ht hp hfs (by rw [decode, hd]; rfl)]
        exact ⟨nofun, nofun⟩
      | ok p =>
        obtain ⟨i, rest⟩ := p
        obtain ⟨m, n, rfl⟩ := decodeStream_hdr_ok hd
        have hdec : decode (.stream .hdr bytes) = .ok (.hdr m n) := by rw [decode, hd]; rfl
        rw [step_of_fetchItem_ok (c := .hdr) ht hp hfs hdec,
          step_of_fetchItem_ok (s := { s with inMem := mem }) (c := .hdr) ht hp (hf.trans hfs) hdec]
        exact ⟨fun t h => execHdr_setInMem h mem, fun r h => absurd h (execHdr_ne_fault m n _ r)⟩

end Sys2Proof.Machine
end

section
/-!
PROOFS. The end of a decode (70_reset_and_hazards.md R172). With the input resident the engine always has a step, and in
the payload each step but the last lowers `stepsLeft`, which counts four for each byte of missing output.
-/

namespace Sys2Proof.Machine

/-! ### A resident input -/

theorem State.resident.exists_inByte {s : State} (h : s.resident) {i : Nat} (hi : i < s.inLen.toNat) :
    ∃ b, inByte s i = some b := Option.isSome_iff_exists.mp (h i hi)

theorem State.resident.exists_fetchByte {s : State} (h : s.resident) (i : Nat) : ∃ b, fetchByte s i = .ok b := by
  by_cases hi : i < s.inLen.toNat
  · obtain ⟨b, hb⟩ := h.exists_inByte hi
    exact ⟨b, fetchByte_of_written hi hb⟩
  · exact ⟨0x00#8, fetchByte_past (Nat.le_of_not_lt hi)⟩

theorem State.holds.singleton {s : State} {p : Nat} {b : Byte} (hp : p < s.inLen.toNat) (hb : inByte s p = some b) :
    s.holds p [b] := by
  intro k c hk
  cases k with
  | zero =>
    cases hk
    exact ⟨hp, hb⟩
  | succ k => simp at hk

/-- Two held runs of bytes, one after the other. -/
theorem State.holds.append {s : State} {p : Nat} {xs ys : List Byte} (hx : s.holds p xs) (hy : s.holds (p + xs.length) ys) :
    s.holds p (xs ++ ys) := by
  intro k b hk
  rcases Nat.lt_or_ge k xs.length with hlt | hge
  · rw [List.getElem?_append_left hlt] at hk
    exact hx k b hk
  · rw [List.getElem?_append_right hge] at hk
    have hmid : p + xs.length + (k - xs.length) = p + k := by omega
    exact hmid ▸ hy (k - xs.length) b hk

/-- Below `L` the stream holds as many bytes as are asked for. -/
theorem State.resident.exists_holds {s : State} (h : s.resident) {p k : Nat} (hk : p + k ≤ s.inLen.toNat) :
    ∃ bytes, bytes.length = k ∧ s.holds p bytes := by
  induction k generalizing p with
  | zero => exact ⟨[], rfl, fun k b hb => by simp at hb⟩
  | succ k ih =>
    obtain ⟨bs, rfl, hbs⟩ := ih (p := p) (by omega)
    obtain ⟨b, hb⟩ := h.exists_inByte (i := p + bs.length) (by omega)
    exact ⟨bs ++ [b], by simp, hbs.append (.singleton (by omega) hb)⟩

theorem InputKept.resident {s t : State} (hk : InputKept s t) (h : s.resident) : t.resident := by
  intro i hi
  rw [hk.inLen] at hi
  rw [hk.inByte_eq]
  exact h i hi

/-! ### The engine always has a step -/

/-- The header's step (R90). -/
theorem step_hdr_answers {s : State} (ht : s.engineTurn = true) (hp : s.phase = .hdr) (hr : s.resident) :
    ∃ t, step s = .next t := by
  by_cases hL4 : s.inLen.toNat < 4
  · exact ⟨_, step_hdr_short ht hp hL4⟩
  obtain ⟨tag, htag, hheld⟩ := hr.exists_holds (p := 0) (k := 4) (by omega)
  obtain ⟨m0, m1, m2, m3, rfl⟩ := List.length_eq_four.mp htag
  by_cases hm : (⟨m0, m1, m2, m3⟩ : Magic) = s.cfg.magic
  · have hmagic : s.holds 0 s.cfg.magic.bytes := hm ▸ hheld
    by_cases hL16 : s.inLen.toNat < 16
    · exact ⟨_, step_hdr_cut ht hp hmagic hL16⟩
    · obtain ⟨len, hlen, hheld⟩ := hr.exists_holds (p := 4) (k := 4) (by omega)
      obtain ⟨a, b, c, d, rfl⟩ := List.length_eq_four.mp hlen
      have hL := Nat.le_of_not_lt hL16
      have hstep := (step_hdr_complete ht hp hL (hmagic.append hheld)).trans (execHdr_of_complete (s := s.popTurn) hp hL)
      split at hstep <;> exact ⟨_, hstep⟩
  · exact ⟨_, step_hdr_wrong_magic (m := ⟨m0, m1, m2, m3⟩) ht hp hheld hm⟩

/-- The step in WIN (R100 to R102). -/
theorem step_win_answers {s : State} (ht : s.engineTurn = true) (hp : s.phase = .win) (hr : s.resident) :
    ∃ t, step s = .next t := by
  by_cases ho : s.outPtr = s.outLen
  · exact ⟨_, step_win_finish ht hp ho⟩
  by_cases hm : s.mask = 0x00#8
  · have hx : s.expects .win := ⟨hp, hm, ho⟩
    rcases Nat.lt_or_ge s.inPtr.toNat s.inLen.toNat with hlt | hge
    · obtain ⟨c, hc⟩ := hr.exists_inByte hlt
      exact ⟨_, step_win_fetch ht hx hlt hc⟩
    · exact ⟨_, step_win_past ht hx hge⟩
  · exact ⟨_, step_win_select ht hp ho hm⟩

/-- The step of a literal, for which there is room (R110). -/
theorem step_lit_answers {s : State} (hi : s.Inv) (ht : s.engineTurn = true) (hx : s.expects .lit) (hr : s.resident) :
    ∃ t, step s = .next t := by
  have hp : s.phase = .tok := hx.1
  obtain ⟨hcap, -⟩ := hi.payload (.inr (.inl hp))
  rcases Nat.lt_or_ge s.inPtr.toNat s.inLen.toNat with hlt | hge
  · obtain ⟨v, hv⟩ := hr.exists_inByte hlt
    exact ⟨_, (step_lit ht hx hlt hv).trans (execLit_of_lt (s := s.popTurn) hx hlt ((hi.tok_room hp).trans_le hcap))⟩
  · exact ⟨_, step_lit_past ht hx hge⟩

/-- The step of a back-reference: whether its bytes are there or not, and wherever its source lies (R111 to R115). -/
theorem step_ref_answers {s : State} (ht : s.engineTurn = true) (hx : s.expects .ref) (hr : s.resident) :
    ∃ t, step s = .next t := by
  obtain ⟨b1, h1⟩ := hr.exists_fetchByte s.inPtr.toNat
  obtain ⟨b2, h2⟩ := hr.exists_fetchByte (s.inPtr.toNat + 1)
  obtain ⟨b3, h3⟩ := hr.exists_fetchByte (s.inPtr.toNat + 2)
  obtain ⟨j, -, -, ⟨-, ht⟩ | ⟨-, -, ht⟩⟩ := consume_cases (step_ref ht hx h1 h2 fun _ => h3).symm <;> exact ⟨_, ht⟩

/-- The step in COPY, which has room for its byte (R120, R121). -/
theorem step_copy_answers {s : State} (hi : s.Inv) (ht : s.engineTurn = true) (hp : s.phase = .copy) :
    ∃ t, step s = .next t := by
  rw [step_copy_turn ht hp]
  by_cases hx : s.copyRem = 0#9 ∨ s.outPtr = s.outLen
  · exact ⟨_, execCopy_exit (s := s.popTurn) hp hx⟩
  · obtain ⟨hr, ho⟩ := not_or.mp hx
    obtain ⟨-, hcap⟩ := hi.copy_room hp ho
    exact ⟨_, execCopy_byte (s := s.popTurn) hp hr ho hcap⟩

/-- No engine step faults or is refused once the host has met its duty (R165). -/
theorem step_answers {s : State} (hi : s.Inv) (ht : s.engineTurn = true) (hr : s.resident) : ∃ t, step s = .next t := by
  cases hp : s.phase with
  | idle => exact ⟨_, step_idle ht hp⟩
  | hdr => exact step_hdr_answers ht hp hr
  | win => exact step_win_answers ht hp hr
  | tok =>
    cases hk : s.tok with
    | lit => exact step_lit_answers hi ht ⟨hp, hk⟩ hr
    | ref => exact step_ref_answers ht ⟨hp, hk⟩ hr
  | copy => exact step_copy_answers hi ht hp

/-! ### The steps that are left -/

/-- The decode has ended, at DONE or at an error. -/
def Ended (t : State) : Prop := t.phase = .idle ∧ (t.status = statusDone ∨ ∃ e, t.status = statusError e)

theorem Failed.ended {t : State} (h : Failed t) : Ended t := h.imp_right .inr

/-- A bound on the steps that a payload still takes. A byte of output costs at most four: the WIN and TOK steps of a
reference, its COPY step and the exit of the copy. Outside the payload the number says nothing. -/
def stepsLeft (s : State) : Nat :=
  match s.phase with
  | .idle => 0
  | .hdr => 0
  | .win => 4 * (s.outLen.toNat - s.outPtr.toNat) + 4
  | .tok => 4 * (s.outLen.toNat - s.outPtr.toNat) + 3
  | .copy =>
    if s.copyRem = 0#9 ∨ s.outPtr = s.outLen then 4 * (s.outLen.toNat - s.outPtr.toNat) + 5
    else 4 * (s.outLen.toNat - s.outPtr.toNat) + 2

theorem stepsLeft_win {s : State} (hp : s.phase = .win) :
    stepsLeft s = 4 * (s.outLen.toNat - s.outPtr.toNat) + 4 := by simp [stepsLeft, hp]

theorem stepsLeft_tok {s : State} (hp : s.phase = .tok) :
    stepsLeft s = 4 * (s.outLen.toNat - s.outPtr.toNat) + 3 := by simp [stepsLeft, hp]

/-- The next step is the exit of the copy. -/
theorem stepsLeft_copy_exit {s : State} (hp : s.phase = .copy) (h : s.copyRem = 0#9 ∨ s.outPtr = s.outLen) :
    stepsLeft s = 4 * (s.outLen.toNat - s.outPtr.toNat) + 5 := by
  rw [stepsLeft, hp]
  exact if_pos h

/-- The next step copies a byte. -/
theorem stepsLeft_copy_byte {s : State} (hp : s.phase = .copy) (hr : s.copyRem ≠ 0#9) (ho : s.outPtr ≠ s.outLen) :
    stepsLeft s = 4 * (s.outLen.toNat - s.outPtr.toNat) + 2 := by
  rw [stepsLeft, hp]
  exact if_neg (not_or_intro hr ho)

theorem stepsLeft_copy_le {s : State} (hp : s.phase = .copy) :
    stepsLeft s ≤ 4 * (s.outLen.toNat - s.outPtr.toNat) + 5 := by
  by_cases h : s.copyRem = 0#9 ∨ s.outPtr = s.outLen
  · exact (stepsLeft_copy_exit hp h).le
  · obtain ⟨hr, ho⟩ := not_or.mp h
    rw [stepsLeft_copy_byte hp hr ho]
    omega

theorem stepsLeft_pos {s : State} (h : s.inPayload) : 0 < stepsLeft s := by
  rcases h with hp | hp | hp <;> rw [stepsLeft, hp]
  · exact Nat.succ_pos _
  · exact Nat.succ_pos _
  · dsimp only
    split <;> exact Nat.succ_pos _

/-! ### Each step ends the decode or leaves fewer -/

/-- The payload goes on with fewer steps left. -/
def ComesCloser (s t : State) : Prop := t.inPayload ∧ stepsLeft t < stepsLeft s

/-- A WIN step that classifies a token. -/
theorem ComesCloser.of_win_tok {s t : State} (hs : s.phase = .win) (ht : t.phase = .tok) (hlen : t.outLen = s.outLen)
    (hout : t.outPtr = s.outPtr) : ComesCloser s t := by
  refine ⟨.inr (.inl ht), ?_⟩
  rw [stepsLeft_win hs, stepsLeft_tok ht, hlen, hout]
  omega

theorem execCtrl_progress {c : Byte} {s t : State} (h : execCtrl c s = .next t) : Ended t ∨ ComesCloser s t := by
  obtain ⟨hp, -, -, ⟨-, rfl⟩ | ⟨-, rfl⟩⟩ := execCtrl_next h
  · exact .inr (.of_win_tok hp rfl rfl rfl)
  · exact .inl (failed_raiseError _ _).ended

/-- A literal takes two steps for its byte. -/
theorem execLit_progress {v : Byte} {s t : State} (hi : s.Inv) (h : execLit v s = .next t) : Ended t ∨ ComesCloser s t := by
  obtain ⟨hp, -, ⟨-, -, rfl⟩ | ⟨-, rfl⟩⟩ := execLit_next h
  · refine .inr ⟨.inl rfl, ?_⟩
    have hlt := hi.tok_room hp
    have hptr : (s.outPtr + 1#32).toNat = s.outPtr.toNat + 1 := toNat_add_one hlt (word_le _)
    rw [stepsLeft_win rfl, stepsLeft_tok hp]
    simp only [putByte_outLen, putByte_outPtr, hptr]
    omega
  · exact .inl (failed_raiseError _ _).ended

/-- A copy that is set up has a byte to copy. -/
theorem RefOutcome.progress {k len : Nat} {d : BitVec 12} {s t : State} (hi : s.Inv) (hp : s.phase = .tok) (hpos : 0 < len)
    (hlen : len ≤ 273) (h : RefOutcome k len d s t) : Ended t ∨ ComesCloser s t := by
  rcases h with ⟨-, -, rfl⟩ | ⟨-, -, rfl⟩ | ⟨_, -, -, -, rfl⟩
  · exact .inl (failed_raiseError _ _).ended
  · refine .inr ⟨.inr (.inr rfl), ?_⟩
    have hrem : BitVec.ofNat 9 len ≠ 0#9 := fun h0 => by
      have hval := toNat_ofNat_copyLen hlen
      rw [h0, BitVec.toNat_zero] at hval
      omega
    have hroom : s.outPtr ≠ s.outLen := fun h0 => (hi.tok_room hp).ne (congrArg BitVec.toNat h0)
    rw [stepsLeft_tok hp]
    exact Eq.trans_lt (stepsLeft_copy_byte rfl hrem hroom) (Nat.lt_succ_self _)
  · exact .inl (failed_raiseError _ _).ended

theorem execCopy_progress {s t : State} (hi : s.Inv) (h : execCopy s = .next t) : ComesCloser s t := by
  obtain ⟨hp, ⟨hx, rfl⟩ | ⟨hr, ho, -, rfl⟩⟩ := execCopy_next h
  · refine ⟨.inl rfl, ?_⟩
    rw [stepsLeft_win rfl, stepsLeft_copy_exit hp hx]
    exact Nat.lt_succ_self _
  · refine ⟨.inr (.inr hp), ?_⟩
    obtain ⟨hlt, -⟩ := hi.copy_room hp ho
    have hle := stepsLeft_copy_le (s := copyByte s) hp
    rw [copyByte_outPtr_toNat hlt, copyByte_outLen] at hle
    rw [stepsLeft_copy_byte hp hr ho]
    omega

theorem engineStep_progress {s t : State} (hi : s.Inv) (hs : s.inPayload) (h : engineStep s = .next t) :
    Ended t ∨ ComesCloser s t := by
  rcases engineStep_next h with ⟨hp, -⟩ | ⟨hp, -⟩ | ⟨-, -, rfl⟩ | ⟨-, -, -, c, h⟩ | ⟨hp, -, -, rfl⟩ |
    ⟨-, -, v, h⟩ | ⟨-, -, n, d, h⟩ | ⟨-, -, d, e, h⟩ | ⟨-, h⟩
  · exact absurd hp hs.ne_idle
  · exact absurd hp hs.ne_hdr
  · exact .inl ⟨rfl, .inl rfl⟩
  · exact execCtrl_progress h
  · exact .inr (.of_win_tok hp rfl rfl rfl)
  · exact execLit_progress hi h
  · obtain ⟨-, hp, -, h⟩ := execBrefs_next h
    exact h.progress hi hp (Nat.succ_pos _) ((shortLen_le n).trans (by decide))
  · obtain ⟨hp, -, h⟩ := execBrefl_next h
    exact h.progress hi hp (Nat.succ_pos _) (longLen_le e)
  · exact .inr (execCopy_progress hi h)

/-- The header ends the decode or begins the payload, with four steps for each of its bytes and four more. -/
theorem execHdr_progress {m : Magic} {n : Word} {s t : State} (h : execHdr m n s = .next t) :
    Ended t ∨ t.inPayload ∧ stepsLeft t = 4 * t.outLen.toNat + 4 := by
  obtain ⟨-, ⟨-, rfl⟩ | ⟨-, -, rfl⟩ | ⟨-, -, -, rfl⟩ | ⟨-, -, -, rfl⟩ | ⟨-, -, -, rfl⟩⟩ := execHdr_next h
  · exact .inl (failed_raiseError _ _).ended
  · exact .inl (failed_raiseError _ _).ended
  · exact .inl (failed_raiseError _ _).ended
  · exact .inl (failed_raiseError _ _).ended
  · exact .inr ⟨.inl rfl, rfl⟩

/-- In HDR the engine's step is that of a header. -/
theorem engineStep_hdr_next {s t : State} (hp : s.phase = .hdr) (h : engineStep s = .next t) :
    ∃ m n, execHdr m n s = .next t := by
  rcases engineStep_next h with ⟨hq, -⟩ | ⟨-, h⟩ | ⟨hq, -⟩ | ⟨hq, -⟩ | ⟨hq, -⟩ | ⟨hq, -⟩ | ⟨hq, -⟩ | ⟨hq, -⟩ | ⟨hq, -⟩
  case inr.inl => exact h
  all_goals cases hp.symm.trans hq

/-! ### The whole decode -/

/-- With no turn of the outside left, the engine runs alone. -/
theorem engineTurn_of_nil {s : State} (hs : s.turns = []) : s.engineTurn = true := by simp [State.engineTurn, hs]

theorem step_engine_of_nil {s : State} (hs : s.turns = []) : step s = engineStep s := by
  have hpop : s.popTurn = s := by rw [State.popTurn, hs, List.tail_nil, ← hs]
  rw [step_engine (engineTurn_of_nil hs), hpop]

/-- The engine alone ends a payload within the steps that are left. -/
theorem exists_run_ended {s : State} (hi : s.Inv) (hs : s.turns = []) (hr : s.resident) (hp : s.inPayload) :
    ∃ k t, k ≤ stepsLeft s ∧ run k s = .next t ∧ Ended t ∧ t.outLen = s.outLen := by
  induction hn : stepsLeft s using Nat.strong_induction_on generalizing s with
  | h n ih =>
    subst hn
    obtain ⟨u, hu⟩ := step_answers hi (engineTurn_of_nil hs) hr
    have he : engineStep s = .next u := (step_engine_of_nil hs).symm.trans hu
    have hlen : u.outLen = s.outLen := (engineStep_advances hi hp he).outLen
    obtain hend | ⟨hpu, hlt⟩ := engineStep_progress hi hp he
    · exact ⟨1, u, stepsLeft_pos hp, run_succ_of_step 0 hu, hend, hlen⟩
    · obtain ⟨k, t, hk, hrun, hend, hlen'⟩ := ih _ hlt (step_inv hi hu) ((engineStep_turns he).trans hs)
        ((engineStep_inputKept he).resident hr) hpu rfl
      exact ⟨k + 1, t, by omega, (run_succ_of_step k hu).trans hrun, hend, hlen'.trans hlen⟩

/-- Settles O55: one step for the header, and then four for each byte of output and four more. -/
theorem everyDecodeEndsInTime : Obligations.EveryDecodeEndsInTime := by
  intro s hi hs hp hr
  obtain ⟨u, hu⟩ := step_answers hi (engineTurn_of_nil hs) hr
  have he : engineStep s = .next u := (step_engine_of_nil hs).symm.trans hu
  obtain ⟨m, n, hx⟩ := engineStep_hdr_next hp he
  obtain ⟨hidle, hst⟩ | ⟨hpu, hsteps⟩ := execHdr_progress hx
  · exact ⟨1, u, by omega, run_succ_of_step 0 hu, hidle, hst⟩
  · obtain ⟨k, t, hk, hrun, ⟨hidle, hst⟩, hlen⟩ := exists_run_ended (step_inv hi hu) ((engineStep_turns he).trans hs)
      ((engineStep_inputKept he).resident hr) hpu
    exact ⟨k + 1, t, by rw [hlen]; omega, (run_succ_of_step k hu).trans hrun, hidle, hst⟩

end Sys2Proof.Machine
end
